-- ==== Sys2Proof/Word.lean ====
section
/-! DEFINITION. The word and byte types (00_scope.md R6, R8). -/

namespace Sys2Proof

/-- One register or one host access: 32 bits (00_scope.md R6, 92_eei_decisions.md D4, D37). -/
abbrev Word := BitVec 32

/-- One element of IN, and one host access key: 8 bits (00_scope.md R6, 30_encoding.md R57). -/
abbrev Byte := BitVec 8

/-- `v[7:0]` of a written word (10_state.md R22). -/
def Word.lowByte (v : Word) : Byte := v.extractLsb' 0 8

end Sys2Proof
end

