-- ==== Sys2Proof/Syntax.lean ====
section
/-! DEFINITION. The instructions: one constructor per row of spec/opcode_table.json (30_encoding.md R64). -/

namespace Sys2Proof

/-- The decoded operations. Constructors are in the table's order. -/
inductive Instr where
  /-- NOP (40_host_interface.md R70). -/
  | nop
  /-- ENCODE.2B1Q (40_host_interface.md R71). -/
  | encode2b1q
  /-- ENCODE.8B6T (40_host_interface.md R71). -/
  | encode8b6t
  /-- CLEAR (40_host_interface.md R72). -/
  | clear
  /-- WR CMD, c (40_host_interface.md R69). -/
  | wrCmd (c : Word)
  /-- WR IN_DATA, v (40_host_interface.md R73). -/
  | wrInData (v : Word)
  /-- RD STATUS (40_host_interface.md R74). -/
  | rdStatus
  /-- RD ERR_INFO (40_host_interface.md R75), and so on to RD PREV_SUM. -/
  | rdErrInfo
  | rdInLen
  | rdOutLen
  | rdTraceLen
  | rdSymIdx
  | rdPrevLevel
  | rdRunningSum
  | rdPrevCode
  | rdPrevSum
  /-- RDIN k (40_host_interface.md R76). -/
  | rdIn (k : Word)
  /-- RDOUT k (40_host_interface.md R77). -/
  | rdOut (k : Word)
  /-- RDTR k, f (40_host_interface.md R78). -/
  | rdTr (k f : Word)
  /-- PAIR.00 (42_pair_encoder_2b1q.md R98). -/
  | pair00
  /-- PAIR.01 (42_pair_encoder_2b1q.md R99). -/
  | pair01
  /-- PAIR.10 (42_pair_encoder_2b1q.md R100). -/
  | pair10
  /-- PAIR.11 (42_pair_encoder_2b1q.md R101). -/
  | pair11
  /-- BYTE d (43_byte_encoder_8b6t.md R104). -/
  | byte (d : Byte)
  /-- VALIDATE, the first encoder step of a frame (41_validator.md R92). -/
  | validate
deriving DecidableEq, Repr

end Sys2Proof
end

