-- ==== Sys2Proof/WellFormed.lean ====
section
/-! DEFINITION. What the encoding admits of an instruction's operands (30_encoding.md R57). -/

namespace Sys2Proof

/-- The field number of a TRACE read is "a field number f in 0–13" (30_encoding.md R57). -/
def traceFieldOk (f : Word) : Bool := decide (f.toNat ≤ 13)

/-- Every operand is one its format can hold. The only operand narrower than its type is RDTR's field number. -/
def WellFormed : Instr → Bool
  | .rdTr _ f => traceFieldOk f
  | .nop | .encode2b1q | .encode8b6t | .clear => true
  | .wrCmd _ | .wrInData _ | .rdIn _ | .rdOut _ => true
  | .rdStatus | .rdErrInfo | .rdInLen | .rdOutLen | .rdTraceLen | .rdSymIdx => true
  | .rdPrevLevel | .rdRunningSum | .rdPrevCode | .rdPrevSum => true
  | .pair00 | .pair01 | .pair10 | .pair11 | .byte _ | .validate => true

end Sys2Proof
end

