-- ==== Sys2Proof/Decode.lean ====
section
/-! DEFINITION. The decoders of 30_encoding.md (R54–R59, R68), each total and rejecting by name; after them the
encoder, and the reading of one word as spec/opcode_table.json numbers it. -/

namespace Sys2Proof

/-- What the machine decodes (30_encoding.md, opening, and R53): an item of one of the four decoded formats, or the
STEP row, which no encoded item selects (R64). -/
inductive Item where
  /-- CMD32: a command word at the CMD register (R54). -/
  | cmd (c : Word)
  /-- HOSTKEY: an access key with its operand words, in the order of R57 (v, or k, or k and f). -/
  | access (h : Byte) (ops : List Word)
  /-- SYM2: two characters in input order (R58). -/
  | sym2 (c0 c1 : Byte)
  /-- SYM8: eight characters in input order (R59). -/
  | sym8 (c0 c1 c2 c3 c4 c5 c6 c7 : Byte)
  /-- STEP: the encoder's turn in PHASE VALIDATE (R64, 41_validator.md R92). -/
  | step
deriving DecidableEq, Repr

/-- Why an item is rejected (30_encoding.md R56, R57, R63). -/
inductive DecodeError where
  /-- R56: not one of the four legal CMD32 words. -/
  | illegalCommand (c : Word)
  /-- R57: "Every other key is refused". -/
  | keyNotAdmitted (h : Byte)
  /-- R57: the operand words are not those of the key. -/
  | wrongOperands (h : Byte)
  /-- R57: "a field number f in 0–13". -/
  | fieldOutOfRange (f : Word)
  /-- R63: a character other than 0x30 and 0x31 inside a symbol. -/
  | notBinary
deriving DecidableEq, Repr

/-- The operations a CMD32 word names (30_encoding.md R55). -/
inductive Command where
  | nop | encode2b1q | encode8b6t | clear
deriving DecidableEq, Repr

/-! ### CMD32 -/

/-- OP, bits [1:0] of a command word (30_encoding.md R54). -/
def cmdOp (c : Word) : BitVec 2 := c.extractLsb' 0 2

/-- SCHEME, bit [2] of a command word (30_encoding.md R54). -/
def cmdScheme (c : Word) : Bool := c.getLsbD 2

/-- RSV, bits [31:3] of a command word (30_encoding.md R54). -/
def cmdRsv (c : Word) : BitVec 29 := c.extractLsb' 3 29

/-- The four legal words, every other word rejected (30_encoding.md R55, R56), in the order of R69's case. -/
def decodeCommand (c : Word) : Option Command :=
  if c = 0x00000000#32 then some .nop
  else if c = 0x00000001#32 then some .encode2b1q
  else if c = 0x00000005#32 then some .encode8b6t
  else if c = 0x00000002#32 then some .clear
  else none

/-- The instruction of a command. -/
def Command.instr : Command → Instr
  | .nop => .nop
  | .encode2b1q => .encode2b1q
  | .encode8b6t => .encode8b6t
  | .clear => .clear

def decodeCmd (c : Word) : Except DecodeError Instr :=
  match decodeCommand c with
  | some k => .ok k.instr
  | none => .error (.illegalCommand c)

/-! ### HOSTKEY -/

/-- DIR, bit [7] of an access key: 1 write, 0 read (30_encoding.md R57). -/
def keyDir (h : Byte) : Bool := h.getLsbD 7

/-- SPACE, bits [6:5] of an access key: 0 REG, 1 IN, 2 OUT, 3 TRACE (30_encoding.md R57). -/
def keySpace (h : Byte) : BitVec 2 := h.extractLsb' 5 2

/-- REGNO, bits [4:0] of an access key (30_encoding.md R57). -/
def keyRegno (h : Byte) : BitVec 5 := h.extractLsb' 0 5

/-- An access without operand words. -/
def noOperand (i : Instr) (h : Byte) : List Word → Except DecodeError Instr
  | [] => .ok i
  | _ => .error (.wrongOperands h)

/-- An access with one operand word. -/
def oneOperand (i : Word → Instr) (h : Byte) : List Word → Except DecodeError Instr
  | [a] => .ok (i a)
  | _ => .error (.wrongOperands h)

/-- A TRACE read: record index k, then field number f in 0–13. -/
def traceOperands (h : Byte) : List Word → Except DecodeError Instr
  | [k, f] => if traceFieldOk f then .ok (.rdTr k f) else .error (.fieldOutOfRange f)
  | _ => .error (.wrongOperands h)

/-- The admitted keys of 30_encoding.md R57, in its order; every other key is rejected. -/
def decodeAccess (h : Byte) (ops : List Word) : Except DecodeError Instr :=
  if h = 0x80#8 then oneOperand .wrCmd h ops
  else if h = 0x83#8 then oneOperand .wrInData h ops
  else if h = 0x01#8 then noOperand .rdStatus h ops
  else if h = 0x02#8 then noOperand .rdErrInfo h ops
  else if h = 0x04#8 then noOperand .rdInLen h ops
  else if h = 0x05#8 then noOperand .rdOutLen h ops
  else if h = 0x06#8 then noOperand .rdTraceLen h ops
  else if h = 0x07#8 then noOperand .rdSymIdx h ops
  else if h = 0x08#8 then noOperand .rdPrevLevel h ops
  else if h = 0x09#8 then noOperand .rdRunningSum h ops
  else if h = 0x0A#8 then noOperand .rdPrevCode h ops
  else if h = 0x0B#8 then noOperand .rdPrevSum h ops
  else if h = 0x20#8 then oneOperand .rdIn h ops
  else if h = 0x40#8 then oneOperand .rdOut h ops
  else if h = 0x60#8 then traceOperands h ops
  else .error (.keyNotAdmitted h)

/-! ### SYM2 and SYM8 -/

/-- `bit(0x30) = 0`, `bit(0x31) = 1` (20_memory.md R38); no other character has a bit (30_encoding.md R63). -/
def bitOf (c : Byte) : Option Bool :=
  if c = 0x30#8 then some false else if c = 0x31#8 then some true else none

/-- The pair operation of a pair's two bits, first character first (30_encoding.md R58). -/
def pairOf : Bool → Bool → Instr
  | false, false => .pair00
  | false, true => .pair01
  | true, false => .pair10
  | true, true => .pair11

/-- The four pairs, first character the high bit (30_encoding.md R58, 92_eei_decisions.md D30). -/
def decodeSym2 (c0 c1 : Byte) : Except DecodeError Instr :=
  match bitOf c0, bitOf c1 with
  | some b1, some b0 => .ok (pairOf b1 b0)
  | _, _ => .error .notBinary

/-- The number whose binary digits the characters are, most significant first, after the digits already in `acc`
(20_memory.md R38). -/
def charsValue : List Byte → Nat → Option Nat
  | [], acc => some acc
  | c :: cs, acc =>
    match bitOf c with
    | none => none
    | some b => charsValue cs (2 * acc + b.toNat)

/-- `d = Σ_{t=0..7} bit(c_t) · 2^(7−t)` (30_encoding.md R59). -/
def decodeSym8 (c0 c1 c2 c3 c4 c5 c6 c7 : Byte) : Except DecodeError Instr :=
  match charsValue [c0, c1, c2, c3, c4, c5, c6, c7] 0 with
  | some d => .ok (.byte (BitVec.ofNat 8 d))
  | none => .error .notBinary

/-! ### The decoder and the encoder -/

/-- One verdict for every item (30_encoding.md R68). -/
def decode : Item → Except DecodeError Instr
  | .cmd c => decodeCmd c
  | .access h ops => decodeAccess h ops
  | .sym2 c0 c1 => decodeSym2 c0 c1
  | .sym8 c0 c1 c2 c3 c4 c5 c6 c7 => decodeSym8 c0 c1 c2 c3 c4 c5 c6 c7
  | .step => .ok .validate

/-- The character of a bit (00_scope.md R11, 41_validator.md R86). -/
def charOf (b : Bool) : Byte := if b then 0x31#8 else 0x30#8

/-- The eight characters of a byte value, most significant bit first (30_encoding.md R59). -/
def sym8Of (d : Byte) : Item :=
  .sym8 (charOf (d.getLsbD 7)) (charOf (d.getLsbD 6)) (charOf (d.getLsbD 5)) (charOf (d.getLsbD 4))
    (charOf (d.getLsbD 3)) (charOf (d.getLsbD 2)) (charOf (d.getLsbD 1)) (charOf (d.getLsbD 0))

/-- The item that stands for an instruction (30_encoding.md R55, R57, R58, R59, R64). -/
def encode : Instr → Item
  | .nop => .cmd 0x00000000#32
  | .encode2b1q => .cmd 0x00000001#32
  | .encode8b6t => .cmd 0x00000005#32
  | .clear => .cmd 0x00000002#32
  | .wrCmd c => .access 0x80#8 [c]
  | .wrInData v => .access 0x83#8 [v]
  | .rdStatus => .access 0x01#8 []
  | .rdErrInfo => .access 0x02#8 []
  | .rdInLen => .access 0x04#8 []
  | .rdOutLen => .access 0x05#8 []
  | .rdTraceLen => .access 0x06#8 []
  | .rdSymIdx => .access 0x07#8 []
  | .rdPrevLevel => .access 0x08#8 []
  | .rdRunningSum => .access 0x09#8 []
  | .rdPrevCode => .access 0x0A#8 []
  | .rdPrevSum => .access 0x0B#8 []
  | .rdIn k => .access 0x20#8 [k]
  | .rdOut k => .access 0x40#8 [k]
  | .rdTr k f => .access 0x60#8 [k, f]
  | .pair00 => .sym2 0x30#8 0x30#8
  | .pair01 => .sym2 0x30#8 0x31#8
  | .pair10 => .sym2 0x31#8 0x30#8
  | .pair11 => .sym2 0x31#8 0x31#8
  | .byte d => sym8Of d
  | .validate => .step

/-! ### One word of the opcode table

The table's formats share numbers (key 0x01, pair 01 and byte 1 are the same bits), and the machine tells them apart
by where an item comes from, which a bare number does not say. `tableItem` reads a number of `nbits` bits in the
table's own order: a 32-bit word is a CMD32 word; an 8-bit one is an admitted access key, or else a pair value, or
else a byte value; 2 bits are a pair value and 0 bits the STEP row (DESIGN CHOICE, log 6). The machine itself never
uses it: `step` decodes `Item`s. -/

/-- How many operand words an access key takes (30_encoding.md R57); none for a key that is not admitted. -/
def operandCount (h : Byte) : Option Nat :=
  if h = 0x80#8 ∨ h = 0x83#8 ∨ h = 0x20#8 ∨ h = 0x40#8 then some 1
  else if h = 0x60#8 then some 2
  else if h = 0x01#8 ∨ h = 0x02#8 ∨ (0x04#8 ≤ h ∧ h ≤ 0x0B#8) then some 0
  else none

/-- The pair of characters whose value is `w`, c0 as bit 1 (30_encoding.md R58). -/
def sym2Of (w : Nat) : Item := .sym2 (charOf (w.testBit 1)) (charOf (w.testBit 0))

def tableItem (nbits w : Nat) : Option Item :=
  if nbits = 32 then some (.cmd (BitVec.ofNat 32 w))
  else if nbits = 8 then
    match operandCount (BitVec.ofNat 8 w) with
    | some n => some (.access (BitVec.ofNat 8 w) (List.replicate n 0#32))
    | none => if w < 4 then some (sym2Of w) else some (sym8Of (BitVec.ofNat 8 w))
  else if nbits = 2 then some (sym2Of w)
  else if nbits = 0 then some .step
  else none

def decodeTableWord (nbits w : Nat) : Option Instr :=
  match tableItem nbits w with
  | some x => (decode x).toOption
  | none => none

end Sys2Proof
end

