-- ==== Sys2Proof/Config.lean ====
section
/-! DEFINITION. What an implementation fixes (00_scope.md R6, R7), the scheme selector (D3), and the one free
value of the model. -/

namespace Sys2Proof

/-- The two schemes in scope (00_scope.md R2, 92_eei_decisions.md D3). -/
inductive Scheme where
  /-- SCHEME = 0: 2 bits → 1 quaternary level. -/
  | twoB1Q
  /-- SCHEME = 1: 8 bits → 6 trits. -/
  | eightB6T
deriving DecidableEq, Repr

/-- The open parameter of the block. `none` is an unbounded IN; a finite MAX_FRAME_CHARS is at most
2 863 311 528 (00_scope.md R6, R7; 92_eei_decisions.md D16, D17). Log 3. -/
structure Config where
  maxFrameChars : Option (Fin 2863311529)
deriving DecidableEq, Repr

namespace Config

/-- No bound on IN: the document gives none (91_not_in_source.md N6). -/
def unbounded : Config := { maxFrameChars := none }

/-- IN_LEN = MAX_FRAME_CHARS, possible only for a finite capacity (40_host_interface.md R73). -/
def isFull (c : Config) (n : Nat) : Bool :=
  match c.maxFrameChars with
  | none => false
  | some m => n == m.val

/-- `n` characters fit the capacity (10_state.md R18: IN_LEN is 0 … MAX_FRAME_CHARS). -/
def admits (c : Config) (n : Nat) : Bool :=
  match c.maxFrameChars with
  | none => true
  | some m => decide (n ≤ m.val)

end Config

/-- The places where the host sees an integer of the model as a 32-bit word (30_encoding.md R61). -/
inductive View where
  | errInfo | inLen | outLen | traceLen | symIdx | prevLevel | runningSum | prevSum | outElement
  /-- Field f of a trace record. -/
  | traceField (f : Nat)
deriving DecidableEq, Repr

/-- FREE VALUE (DESIGN CHOICE, safe, log 4): the word a view shows for an integer that does not fit 32 bits.
00_scope.md R8 defines `twos_32` and `zext_32` only for integers that fit, and R7 makes that certain only for a
finite MAX_FRAME_CHARS. Nothing constrains it. -/
opaque Config.unstatedView : View → Int → Word

end Sys2Proof
end

