-- ==== Sys2Proof/Machine/State.lean ====
section
/-! DEFINITION. The state of the machine (10_state.md R15, R18, R33; 20_memory.md R37), the reasons a step can stop,
and the state after reset (70_reset_and_hazards.md R146). -/

namespace Sys2Proof.Machine

/-- PHASE (10_state.md R33). -/
inductive Phase where
  | validate | symbols
deriving DecidableEq, Repr

/-- STATUS.STATE (10_state.md R20). PHASE "is meaningful only while STATE = BUSY" (R33), so it is the argument of
`busy` and has no value elsewhere (log 8). -/
inductive RunState where
  | idle
  | busy (phase : Phase)
  | done
  | error
deriving DecidableEq, Repr

/-- ERR_CODE (60_exceptions.md R130). Codes 5–7 "are never produced": there is no such value. -/
inductive ErrCode where
  | none | invalidCharacter | wrongLengthFor2B1Q | wrongLengthFor8B6T | illegalCommand
deriving DecidableEq, Repr

/-- A trit, an integer in {−1, 0, 1} (00_scope.md R11). -/
inductive Trit where
  | neg | zero | pos
deriving DecidableEq, Repr

/-- A TernaryCode: "exactly 6 trits", written `[c0, c1, c2, c3, c4, c5]` (00_scope.md R9, R11). -/
structure Code where
  c0 : Trit
  c1 : Trit
  c2 : Trit
  c3 : Trit
  c4 : Trit
  c5 : Trit
deriving DecidableEq, Repr

/-- KIND (44_trace_recorder.md R123). Values 7–15 "are never produced". -/
inductive Kind where
  | inputAnalysis | grouping | pair | byteDecompose | dcBalance | dcAccumulation | byteFinal
deriving DecidableEq, Repr

/-- BAL_NOTE (44_trace_recorder.md R121): none, POSFLIP, INVERT; "3 never". -/
inductive BalNote where
  | none | posFlip | invert
deriving DecidableEq, Repr

/-- A trace record: the 14 fields of 44_trace_recorder.md R121, f = 0 … 13 in order. The numeric fields are the
integers the rules compute; their 32-bit forms are made when the host reads them. -/
structure TraceRecord where
  kind : Kind
  index : Nat
  scheme : Scheme
  p0 : Int
  p1 : Int
  p2 : Int
  codeA : BitVec 12
  codeB : BitVec 12
  hasData : Bool
  snapLen : Nat
  hasBal : Bool
  balSum : Int
  balViol : Bool
  balNote : BalNote
deriving DecidableEq, Repr

/-- What can happen next, from outside the encoder or by its turn (20_memory.md R48, 70_reset_and_hazards.md R147).
Log 1. -/
inductive Event where
  /-- A command word at CMD, by itself (30_encoding.md R54; log 5). -/
  | command (c : Word)
  /-- A host access: key and operand words (30_encoding.md R57). -/
  | access (h : Byte) (ops : List Word)
  /-- One encoder step (20_memory.md R48). -/
  | encoder
  /-- The reset input is asserted (70_reset_and_hazards.md R147). -/
  | reset
deriving DecidableEq, Repr

/-- The machine. The fields from `run` to `prevCode` are the block's state; `cfg`, `pending` and `replies` are the
model's own (logs 1, 2, 3). IN_LEN, OUT_LEN and TRACE_LEN are the lengths of `input`, `output` and `trace`
(10_state.md R23, R24); PREV_SUM is computed (R30); CMD and IN_DATA store nothing (R19, R22). -/
@[ext]
structure State where
  /-- MAX_FRAME_CHARS (00_scope.md R6), never written by a step. -/
  cfg : Config
  /-- STATUS.STATE and, while BUSY, PHASE (10_state.md R20, R33). -/
  run : RunState
  /-- STATUS.SCHEME (10_state.md R20). -/
  scheme : Scheme
  /-- STATUS.ERR_CODE (10_state.md R20). -/
  errCode : ErrCode
  /-- ERR_INFO (10_state.md R21). -/
  errInfo : Word
  /-- IN (20_memory.md R37). -/
  input : List Byte
  /-- OUT (20_memory.md R37). -/
  output : List Int
  /-- TRACE (20_memory.md R37). -/
  trace : List TraceRecord
  /-- SYM_IDX (10_state.md R25). -/
  symIdx : Nat
  /-- PREV_LEVEL (10_state.md R27). -/
  prevLevel : Int
  /-- RUNNING_SUM, unbounded (10_state.md R28). -/
  runningSum : Int
  /-- PREV_CODE (10_state.md R29). -/
  prevCode : Code
  /-- The host accesses, encoder turns and reset assertions still to come, next first. -/
  pending : List Event
  /-- The words the host's reads have returned, oldest first. -/
  replies : List Word
deriving DecidableEq, Repr

/-- Raised by an encoder turn in a state no run reaches (log 10). Safe: the machine stops where the spec says no
step ever comes. -/
inductive Fault where
  /-- Raised by `fetchItem` when fewer characters than one symbol are left at SYM_IDX in PHASE SYMBOLS; 10_state.md
  R25, R33 end a frame before that. Safe. -/
  | symbolMissing
  /-- Raised by an encoder turn whose symbol holds a character that is neither 0x30 nor 0x31; 30_encoding.md R63: "no
  symbol step ever meets one". Safe. -/
  | nonBinarySymbol
deriving DecidableEq, Repr

/-- The model has no step (00_scope.md R14). Each is safe: it errs toward unprovable. -/
inductive Refusal where
  /-- Raised by an arm of `exec` whose instruction has no meaning yet. Safe. -/
  | notModelled (mnemonic : String)
  /-- Any access but RD STATUS while STATE = BUSY (70_reset_and_hazards.md R151). Safe. -/
  | accessWhileBusy
  /-- An access key outside 30_encoding.md R57's list. Safe. -/
  | keyNotAdmitted (h : Byte)
  /-- Operand words that are not those of the key (30_encoding.md R57; log 12). Safe. -/
  | wrongOperands (h : Byte)
  /-- RDIN, RDOUT or RDTR at an index at or beyond the length (20_memory.md R41–R43). Safe. -/
  | indexOutOfRange
  /-- RDTR of a field above 13 (20_memory.md R43). Safe. -/
  | fieldOutOfRange
  /-- WR IN_DATA when IN_LEN = MAX_FRAME_CHARS (40_host_interface.md R73). Safe. -/
  | inputFull
  /-- An encoder turn, or nothing pending at all, while STATE ≠ BUSY: "no step, because the encoder agent is idle"
  (00_scope.md R14; log 11). Safe. -/
  | encoderIdle
  /-- An encoder instruction run outside the states in which its rule takes it (R92, R93, R104 "taken when"; log 11).
  Safe. -/
  | stepNotEnabled
deriving DecidableEq, Repr

/-- What a meaning answers. -/
abbrev Out := Host.Outcome State Fault Refusal

/-- Six 0 trits: previousCode before the first byte (10_state.md R29, 92_eei_decisions.md D28). -/
def Code.zero : Code := ⟨.zero, .zero, .zero, .zero, .zero, .zero⟩

/-- The state after reset of a block with the open parameter `c`: every value is the one 70_reset_and_hazards.md R146
gives; no access is pending and no word has been returned (logs 1, 2). -/
def State.resetWith (c : Config) : State where
  cfg := c
  run := .idle
  scheme := .twoB1Q
  errCode := .none
  errInfo := 0#32
  input := []
  output := []
  trace := []
  symIdx := 0
  prevLevel := 0
  runningSum := 0
  prevCode := Code.zero
  pending := []
  replies := []

/-- The state after reset, with IN unbounded (log 3: the capacity is the model's choice, the rest is R146). -/
def State.reset : State := State.resetWith Config.unbounded

end Sys2Proof.Machine
end

