-- ==== Sys2Proof/Machine/Flags.lean ====
section
/-! DEFINITION. The predicates and the coded fields of STATUS. The block stores no flags (10_state.md R31, R32): each
is computed where a rule reads it. -/

namespace Sys2Proof.Machine

/-- `isPreviousPositive = previousLevel > 0`; "0 counts as NOT positive" (10_state.md R31, 42_pair_encoder_2b1q.md
R94). -/
def isPreviousPositive (prev : Int) : Bool := decide (0 < prev)

/-- `isViolation = |runningSum| > 3` (10_state.md R32, 43_byte_encoder_8b6t.md R114). -/
def isViolation (rs : Int) : Bool := decide (3 < rs.natAbs)

/-- `same_signed` (00_scope.md R13): both positive or both negative; "zero never triggers this". -/
def sameSigned (a b : Int) : Bool := decide ((0 < a ∧ 0 < b) ∨ (a < 0 ∧ b < 0))

/-- prevState of a PAIR record: 0 neutral, 1 positive, 2 negative (42_pair_encoder_2b1q.md R102,
92_eei_decisions.md D29). -/
def prevState (prev : Int) : Int := if prev = 0 then 0 else if 0 < prev then 1 else 2

/-- STATE = BUSY. -/
def State.busy (s : State) : Bool :=
  match s.run with
  | .busy _ => true
  | _ => false

/-- The value of STATUS.STATE (10_state.md R20). -/
def RunState.code : RunState → BitVec 2
  | .idle => 0#2
  | .busy _ => 1#2
  | .done => 2#2
  | .error => 3#2

/-- The value of SCHEME (10_state.md R20, 92_eei_decisions.md D3). -/
def schemeCode : Scheme → BitVec 1
  | .twoB1Q => 0#1
  | .eightB6T => 1#1

/-- The value of ERR_CODE (60_exceptions.md R130). -/
def ErrCode.code : ErrCode → BitVec 3
  | .none => 0#3
  | .invalidCharacter => 1#3
  | .wrongLengthFor2B1Q => 2#3
  | .wrongLengthFor8B6T => 3#3
  | .illegalCommand => 4#3

/-- `{26'b0, ERR_CODE[2:0], SCHEME, STATE[1:0]}` (40_host_interface.md R74, 10_state.md R20). -/
def statusWord (s : State) : Word :=
  0#26 ++ s.errCode.code ++ schemeCode s.scheme ++ s.run.code

/-- The value of KIND (44_trace_recorder.md R123). -/
def Kind.code : Kind → BitVec 4
  | .inputAnalysis => 0#4
  | .grouping => 1#4
  | .pair => 2#4
  | .byteDecompose => 3#4
  | .dcBalance => 4#4
  | .dcAccumulation => 5#4
  | .byteFinal => 6#4

/-- The value of BAL_NOTE (44_trace_recorder.md R121). -/
def BalNote.code : BalNote → BitVec 2
  | .none => 0#2
  | .posFlip => 1#2
  | .invert => 2#2

end Sys2Proof.Machine
end

