-- ==== Sys2Proof/Machine/Operands.lean ====
section
/-! DEFINITION. Operand forms: the 32-bit views (30_encoding.md R61), codes and their packing (R60), symbol widths
(R62) and the symbol at SYM_IDX (10_state.md R25, 20_memory.md R38). -/

namespace Sys2Proof.Machine

/-! ### 32-bit views -/

/-- `twos_32(x)` (00_scope.md R8), and the free value where R8 does not define it (log 4). -/
def twos32 (v : View) (x : Int) : Word :=
  if -2147483648 ≤ x ∧ x < 2147483648 then BitVec.ofInt 32 x else Config.unstatedView v x

/-- `zext_32` of a count or index (00_scope.md R8), and the free value where it does not fit (log 4). -/
def zext32 (v : View) (n : Nat) : Word :=
  if n < 4294967296 then BitVec.ofNat 32 n else Config.unstatedView v n

/-! ### Trits and codes -/

/-- The integer a trit is (00_scope.md R11). -/
def Trit.val : Trit → Int
  | .neg => -1
  | .zero => 0
  | .pos => 1

/-- The trit of a base-3 digit: the digit less 1 (43_byte_encoder_8b6t.md R105). -/
def Trit.ofDigit : Nat → Trit
  | 0 => .neg
  | 1 => .zero
  | _ => .pos

/-- The trit with the other sign (43_byte_encoder_8b6t.md R110). -/
def Trit.negate : Trit → Trit
  | .neg => .pos
  | .zero => .zero
  | .pos => .neg

/-- `twos_2` of a trit: +1 = 0b01, 0 = 0b00, −1 = 0b11 (30_encoding.md R60). -/
def Trit.bits : Trit → BitVec 2
  | .neg => 3#2
  | .zero => 0#2
  | .pos => 1#2

/-- `int_2` of a trit field; the pattern 0b10 is no trit (30_encoding.md R60, R63). -/
def Trit.ofBits (b : BitVec 2) : Option Trit :=
  if b = 0#2 then some .zero else if b = 1#2 then some .pos else if b = 3#2 then some .neg else none

/-- The six trits in index order. -/
def Code.trits (c : Code) : List Trit := [c.c0, c.c1, c.c2, c.c3, c.c4, c.c5]

/-- The six trits as integers in index order, as they go to OUT (43_byte_encoder_8b6t.md R112). -/
def Code.vals (c : Code) : List Int := c.trits.map Trit.val

/-- `Σ c` (00_scope.md R10). -/
def Code.sum (c : Code) : Int := c.vals.sum

/-- CODE12: trit i in bits [2i+1:2i] (30_encoding.md R60). -/
def Code.pack (c : Code) : BitVec 12 :=
  c.c5.bits ++ c.c4.bits ++ c.c3.bits ++ c.c2.bits ++ c.c1.bits ++ c.c0.bits

/-- The code of a CODE12 field, if every pair of bits is a trit (30_encoding.md R60). -/
def Code.unpack (w : BitVec 12) : Option Code := do
  let c0 ← Trit.ofBits (w.extractLsb' 0 2)
  let c1 ← Trit.ofBits (w.extractLsb' 2 2)
  let c2 ← Trit.ofBits (w.extractLsb' 4 2)
  let c3 ← Trit.ofBits (w.extractLsb' 6 2)
  let c4 ← Trit.ofBits (w.extractLsb' 8 2)
  let c5 ← Trit.ofBits (w.extractLsb' 10 2)
  return ⟨c0, c1, c2, c3, c4, c5⟩

/-- `zext_32(CODE12)` (30_encoding.md R61). -/
def codeWord (c : BitVec 12) : Word := c.setWidth 32

/-- PREV_SUM is computed, not stored (10_state.md R30). -/
def prevSum (s : State) : Int := s.prevCode.sum

/-! ### Symbols -/

/-- The symbol width w (30_encoding.md R62). -/
def symbolWidth : Scheme → Nat
  | .twoB1Q => 2
  | .eightB6T => 8

/-- m = IN_LEN / w, the number of whole symbols in IN (40_host_interface.md R79). -/
def symbolCount (s : State) : Nat := s.input.length / symbolWidth s.scheme

/-- The characters of IN from symbol SYM_IDX on: `IN[w·SYM_IDX ..]` (10_state.md R25). -/
def inputAtSymbol (s : State) : List Byte := s.input.drop (symbolWidth s.scheme * s.symIdx)

/-- The symbol at SYM_IDX, in the format STATUS.SCHEME selects (30_encoding.md R62, 20_memory.md R38). -/
def fetchSymbol (s : State) : Except Fault Item :=
  match s.scheme, inputAtSymbol s with
  | .twoB1Q, c0 :: c1 :: _ => .ok (.sym2 c0 c1)
  | .eightB6T, c0 :: c1 :: c2 :: c3 :: c4 :: c5 :: c6 :: c7 :: _ => .ok (.sym8 c0 c1 c2 c3 c4 c5 c6 c7)
  | _, _ => .error .symbolMissing

/-- What the encoder's turn decodes: the VALIDATE step in PHASE VALIDATE, the symbol at SYM_IDX in PHASE SYMBOLS
(10_state.md R33). -/
def fetchItem (phase : Phase) (s : State) : Except Fault Item :=
  match phase with
  | .validate => .ok .step
  | .symbols => fetchSymbol s

end Sys2Proof.Machine
end

