-- ==== Sys2Proof/Machine/Trace.lean ====
section
/-! DEFINITION. The trace recorder (44_trace_recorder.md): the records each rule makes, `TraceAppend`, and the host's
view of a record's fields. -/

namespace Sys2Proof.Machine

/-- A record of one kind with every other field 0: "A field that a record's kind does not use is 0"
(44_trace_recorder.md R121). -/
def blankRecord (k : Kind) : TraceRecord where
  kind := k
  index := 0
  scheme := .twoB1Q
  p0 := 0
  p1 := 0
  p2 := 0
  codeA := 0#12
  codeB := 0#12
  hasData := false
  snapLen := 0
  hasBal := false
  balSum := 0
  balViol := false
  balNote := .none

/-- KIND 0: P0 = IN_LEN, P1 = m (44_trace_recorder.md R123, R126). -/
def inputAnalysisRecord (len count : Nat) : TraceRecord :=
  { blankRecord .inputAnalysis with p0 := len, p1 := count }

/-- KIND 1: P0 = m (44_trace_recorder.md R123, R126). -/
def groupingRecord (count : Nat) : TraceRecord :=
  { blankRecord .grouping with p0 := count }

/-- KIND 2 (42_pair_encoder_2b1q.md R102). -/
def pairRecord (index p : Nat) (prev level : Int) (snap : Nat) : TraceRecord :=
  { blankRecord .pair with
    index := index, p0 := p, p1 := prevState prev, p2 := level, hasData := true, snapLen := snap }

/-- KIND 3 (43_byte_encoder_8b6t.md R105). -/
def decomposeRecord (index d : Nat) (code : Code) : TraceRecord :=
  { blankRecord .byteDecompose with index := index, p0 := d, codeA := code.pack }

/-- KIND 4 (43_byte_encoder_8b6t.md R108); `rs` is the running sum after the flips. -/
def dcBalanceRecord (index : Nat) (sum : Int) (pre post : Code) (rs : Int) : TraceRecord :=
  { blankRecord .dcBalance with
    index := index, p0 := sum, codeA := pre.pack, codeB := post.pack,
    hasBal := true, balSum := rs, balViol := isViolation rs, balNote := .posFlip }

/-- KIND 5 (43_byte_encoder_8b6t.md R110); `rs` is the running sum after the update (92_eei_decisions.md D13). -/
def dcAccumulationRecord (index : Nat) (previousSum currentSum : Int) (pre post : Code) (rs : Int) : TraceRecord :=
  { blankRecord .dcAccumulation with
    index := index, p0 := previousSum, p1 := currentSum, codeA := pre.pack, codeB := post.pack,
    hasBal := true, balSum := rs, balViol := isViolation rs, balNote := .invert }

/-- KIND 6 (43_byte_encoder_8b6t.md R113). -/
def finalRecord (index : Nat) (code : Code) (snap : Nat) (rs : Int) : TraceRecord :=
  { blankRecord .byteFinal with
    index := index, codeA := code.pack, hasData := true, snapLen := snap,
    hasBal := true, balSum := rs, balViol := isViolation rs }

/-- "Field SCHEME of r is always STATUS.SCHEME" (44_trace_recorder.md R122). -/
def TraceRecord.stamp (sch : Scheme) (r : TraceRecord) : TraceRecord := { r with scheme := sch }

/-- `TraceAppend(r)` (44_trace_recorder.md R122). -/
def traceAppend (r : TraceRecord) (s : State) : State :=
  { s with trace := s.trace ++ [r.stamp s.scheme] }

/-- `TraceAppend` of several records in order. -/
def traceAppendAll : List TraceRecord → State → State
  | [], s => s
  | r :: rs, s => traceAppendAll rs (traceAppend r s)

/-- P0 and P1 are "zext for kinds 0–1, twos_32 for kinds 2–6" (44_trace_recorder.md R121). -/
def paramWord (r : TraceRecord) (f : Nat) (x : Int) : Word :=
  match r.kind with
  | .inputAnalysis | .grouping => zext32 (.traceField f) x.toNat
  | .pair | .byteDecompose | .dcBalance | .dcAccumulation | .byteFinal => twos32 (.traceField f) x

/-- A 1-bit field, zero-extended. -/
def bitWord (b : Bool) : Word := if b then 1#32 else 0#32

/-- Field f of a record in its read format (44_trace_recorder.md R121); there are fields 0 … 13 only. -/
def TraceRecord.field (r : TraceRecord) (f : Nat) : Option Word :=
  match f with
  | 0 => some (r.kind.code.setWidth 32)
  | 1 => some (zext32 (.traceField 1) r.index)
  | 2 => some ((schemeCode r.scheme).setWidth 32)
  | 3 => some (paramWord r 3 r.p0)
  | 4 => some (paramWord r 4 r.p1)
  | 5 => some (twos32 (.traceField 5) r.p2)
  | 6 => some (codeWord r.codeA)
  | 7 => some (codeWord r.codeB)
  | 8 => some (bitWord r.hasData)
  | 9 => some (zext32 (.traceField 9) r.snapLen)
  | 10 => some (bitWord r.hasBal)
  | 11 => some (twos32 (.traceField 11) r.balSum)
  | 12 => some (bitWord r.balViol)
  | 13 => some (r.balNote.code.setWidth 32)
  | _ => none

end Sys2Proof.Machine
end

