-- ==== Sys2Proof/Machine/Ops.lean ====
section
/-! DEFINITION. The shared operations (00_scope.md R12): appending and reading the buffers, answering a read, the busy
guard, raising the two device errors and leaving them, Reset, and placing an instruction where the machine takes its
next one. -/

namespace Sys2Proof.Machine

/-! ### The buffers -/

/-- `Append(OUT, v)` (00_scope.md R12). -/
def appendOut (v : Int) (s : State) : State := { s with output := s.output ++ [v] }

/-- `Append(OUT, ·)` of several values in order. -/
def appendOutAll : List Int → State → State
  | [], s => s
  | v :: vs, s => appendOutAll vs (appendOut v s)

/-- `IN[IN_LEN] <- c; IN_LEN <- IN_LEN + 1` (40_host_interface.md R73). -/
def appendInput (c : Byte) (s : State) : State := { s with input := s.input ++ [c] }

/-- IN within its capacity. IN, OUT and TRACE are dense lists whose positions are their indices, so the capacity is the
only thing their form leaves to check (10_state.md R18, R26; log 9). -/
abbrev Memory.wf (s : State) : Prop := s.cfg.admits s.input.length = true

/-- `ReadIn(k)` (20_memory.md R42). -/
def readIn (k : Word) (s : State) : Except Refusal Word :=
  if s.busy then .error .accessWhileBusy
  else
    match s.input[k.toNat]? with
    | some c => .ok (c.setWidth 32)
    | none => .error .indexOutOfRange

/-- `ReadOut(k)` (20_memory.md R41). -/
def readOut (k : Word) (s : State) : Except Refusal Word :=
  if s.busy then .error .accessWhileBusy
  else
    match s.output[k.toNat]? with
    | some v => .ok (twos32 .outElement v)
    | none => .error .indexOutOfRange

/-- `ReadTrace(k, f)` (20_memory.md R43). -/
def readTrace (k f : Word) (s : State) : Except Refusal Word :=
  if s.busy then .error .accessWhileBusy
  else
    match s.trace[k.toNat]? with
    | none => .error .indexOutOfRange
    | some r =>
      match r.field f.toNat with
      | some w => .ok w
      | none => .error .fieldOutOfRange

/-- A read of a register other than STATUS (40_host_interface.md R75). -/
def readRegister (w : Word) (s : State) : Except Refusal Word :=
  if s.busy then .error .accessWhileBusy else .ok w

/-! ### Answers -/

/-- The host receives a word (30_encoding.md R65; log 2). Reads have no other effect (20_memory.md R45). -/
def giveReply (w : Word) (s : State) : State := { s with replies := s.replies ++ [w] }

/-- A read's outcome. -/
def answer (r : Except Refusal Word) (s : State) : Out :=
  match r with
  | .ok w => .next (giveReply w s)
  | .error e => .refused e

/-- "Access while busy": every access but RD STATUS (70_reset_and_hazards.md R151). -/
def unlessBusy (s : State) (k : State → Out) : Out :=
  if s.busy then .refused .accessWhileBusy else k s

/-! ### Device errors, and leaving them -/

/-- `raise ValidationFailure(kind, info)` (60_exceptions.md R132). -/
def raiseValidationFailure (kind : ErrCode) (info : Nat) (s : State) : State :=
  { s with errCode := kind, errInfo := zext32 .errInfo info, run := .error }

/-- `raise IllegalCommand(c)` (60_exceptions.md R133): "Nothing else changes". -/
def raiseIllegalCommand (c : Word) (s : State) : State :=
  { s with errCode := .illegalCommand, errInfo := c, run := .error }

/-- `Reset` (70_reset_and_hazards.md R146): every register its reset value, every buffer empty. The capacity, what is
still to come and what the host has received are not the block's and stay (log 13). One of the two ways out of ERROR
(60_exceptions.md R137). -/
def resetBlock (s : State) : State :=
  { State.resetWith s.cfg with pending := s.pending, replies := s.replies }

/-- The start of a frame under scheme s (40_host_interface.md R71); IN stays. The other way out of ERROR
(60_exceptions.md R137). -/
def startFrame (sch : Scheme) (s : State) : State :=
  { s with
    output := [], trace := [], symIdx := 0
    prevLevel := 0, runningSum := 0, prevCode := Code.zero
    errCode := .none, errInfo := 0#32
    scheme := sch, run := .busy .validate }

/-! ### The encoder's steps -/

/-- A symbol step of scheme `sch` is taken "when STATE = BUSY, PHASE = SYMBOLS, SCHEME = …, and SYM_IDX < IN_LEN / w"
(42_pair_encoder_2b1q.md R93, 43_byte_encoder_8b6t.md R104). -/
def symbolEnabled (sch : Scheme) (s : State) : Bool :=
  decide (s.run = .busy .symbols ∧ s.scheme = sch ∧ s.symIdx < symbolCount s)

/-- The last lines of every symbol step: `SYM_IDX <- j + 1; if SYM_IDX == IN_LEN / w: STATE <- DONE`
(42_pair_encoder_2b1q.md R93, 43_byte_encoder_8b6t.md R104). -/
def finishSymbol (s : State) : State :=
  { s with
    symIdx := s.symIdx + 1
    run := if s.symIdx + 1 = symbolCount s then .done else s.run }

/-! ### What `step` does with items that do not decode -/

/-- A host item the decoder rejects: refused while BUSY before any decoding (60_exceptions.md R136); an illegal command
word raises IllegalCommand (R133); every other rejected access is refused (30_encoding.md R57). No host item is a
symbol, so the last arm is never met. -/
def rejectHostItem (e : DecodeError) (s : State) : Out :=
  unlessBusy s fun s =>
    match e with
    | .illegalCommand c => .next (raiseIllegalCommand c s)
    | .keyNotAdmitted h => .refused (.keyNotAdmitted h)
    | .wrongOperands h => .refused (.wrongOperands h)
    | .fieldOutOfRange _ => .refused .fieldOutOfRange
    | .notBinary => .fault .nonBinarySymbol


/-! ### Placing an instruction (log 7) -/

/-- IN with the characters of one symbol at position `at`, positions below it kept (and filled with '0' where IN is
shorter), and positions above the symbol kept. -/
def placeSymbol (pos : Nat) (chars : List Byte) (inp : List Byte) : List Byte :=
  inp.take pos ++ List.replicate (pos - inp.length) 0x30#8 ++ chars ++ inp.drop (pos + chars.length)

/-- The encoder's turn, next, in PHASE SYMBOLS of scheme `sch`, with the symbol's characters at SYM_IDX. -/
def placeEncoderSymbol (sch : Scheme) (chars : List Byte) (s : State) : State :=
  { s with
    scheme := sch, run := .busy .symbols
    input := placeSymbol (symbolWidth sch * s.symIdx) chars s.input
    pending := .encoder :: s.pending }

/-- `s` with an item placed where the machine takes its next one. -/
def placeItem (x : Item) (s : State) : State :=
  match x with
  | .cmd c => { s with pending := .command c :: s.pending }
  | .access h ops => { s with pending := .access h ops :: s.pending }
  | .sym2 c0 c1 => placeEncoderSymbol .twoB1Q [c0, c1] s
  | .sym8 c0 c1 c2 c3 c4 c5 c6 c7 => placeEncoderSymbol .eightB6T [c0, c1, c2, c3, c4, c5, c6, c7] s
  | .step => { s with run := .busy .validate, pending := .encoder :: s.pending }

end Sys2Proof.Machine
end

