-- ==== Sys2Proof/Machine/Access.lean ====
section
/-! DEFINITION. The IN_DATA write and the reads (40_host_interface.md R73–R78). -/

namespace Sys2Proof.Machine

/-- WR IN_DATA: append `v[7:0]`, unless BUSY or full (40_host_interface.md R73). -/
def execWrInData (v : Word) (s : State) : Out :=
  unlessBusy s fun s =>
    if s.cfg.isFull s.input.length then .refused .inputFull
    else .next (appendInput v.lowByte s)

/-- RD STATUS, "the only access admitted while BUSY" (40_host_interface.md R74). -/
def execRdStatus (s : State) : Out := .next (giveReply (statusWord s) s)

/-- RD ERR_INFO (40_host_interface.md R75; 10_state.md R21). -/
def execRdErrInfo (s : State) : Out := answer (readRegister s.errInfo s) s

/-- RD IN_LEN (40_host_interface.md R75; 10_state.md R23). -/
def execRdInLen (s : State) : Out := answer (readRegister (zext32 .inLen s.input.length) s) s

/-- RD OUT_LEN (40_host_interface.md R75; 10_state.md R24). -/
def execRdOutLen (s : State) : Out := answer (readRegister (zext32 .outLen s.output.length) s) s

/-- RD TRACE_LEN (40_host_interface.md R75; 10_state.md R24). -/
def execRdTraceLen (s : State) : Out := answer (readRegister (zext32 .traceLen s.trace.length) s) s

/-- RD SYM_IDX (40_host_interface.md R75; 10_state.md R25). -/
def execRdSymIdx (s : State) : Out := answer (readRegister (zext32 .symIdx s.symIdx) s) s

/-- RD PREV_LEVEL (40_host_interface.md R75; 10_state.md R27). -/
def execRdPrevLevel (s : State) : Out := answer (readRegister (twos32 .prevLevel s.prevLevel) s) s

/-- RD RUNNING_SUM (40_host_interface.md R75; 10_state.md R28). -/
def execRdRunningSum (s : State) : Out := answer (readRegister (twos32 .runningSum s.runningSum) s) s

/-- RD PREV_CODE (40_host_interface.md R75; 10_state.md R29). -/
def execRdPrevCode (s : State) : Out := answer (readRegister (codeWord s.prevCode.pack) s) s

/-- RD PREV_SUM (40_host_interface.md R75; 10_state.md R30). -/
def execRdPrevSum (s : State) : Out := answer (readRegister (twos32 .prevSum (prevSum s)) s) s

/-- RDIN k (40_host_interface.md R76). -/
def execRdIn (k : Word) (s : State) : Out := answer (readIn k s) s

/-- RDOUT k (40_host_interface.md R77). -/
def execRdOut (k : Word) (s : State) : Out := answer (readOut k s) s

/-- RDTR k, f (40_host_interface.md R78). -/
def execRdTr (k f : Word) (s : State) : Out := answer (readTrace k f s) s

end Sys2Proof.Machine
end

