-- ==== Sys2Proof/Machine/ByteCode.lean ====
section
/-! DEFINITION. The 8B6T byte encoder with DC balance (43_byte_encoder_8b6t.md), its sub-steps as pure functions. -/

namespace Sys2Proof.Machine

/-- What a byte step works on (10_state.md R34): the code, the running sum `rs`, and the records made so far. It
exists only within the step. -/
structure ByteWork where
  code : Code
  rs : Int
  records : List TraceRecord
deriving DecidableEq, Repr

/-- `code[i] = floor(d / 3^i) mod 3 − 1` (43_byte_encoder_8b6t.md R105). -/
def decomposeTrit (d i : Nat) : Trit := Trit.ofDigit (d / 3 ^ i % 3)

/-- `Decompose(d)` (43_byte_encoder_8b6t.md R105). -/
def decompose (d : Nat) : Code :=
  ⟨decomposeTrit d 0, decomposeTrit d 1, decomposeTrit d 2, decomposeTrit d 3, decomposeTrit d 4, decomposeTrit d 5⟩

/-- One round of FlipPositives' loop: a +1 trit becomes −1 and takes 2 from the running sum
(43_byte_encoder_8b6t.md R108). -/
def flipTrit (t : Trit) (rs : Int) : Trit × Int :=
  match t with
  | .pos => (.neg, rs - 2)
  | .zero => (.zero, rs)
  | .neg => (.neg, rs)

/-- `FlipPositives(code, rs)`: the loop over i = 0 … 5, every +1 flipped, never stopped early
(43_byte_encoder_8b6t.md R108, R118). -/
def flipPositives (c : Code) (rs : Int) : Code × Int :=
  let (t0, r0) := flipTrit c.c0 rs
  let (t1, r1) := flipTrit c.c1 r0
  let (t2, r2) := flipTrit c.c2 r1
  let (t3, r3) := flipTrit c.c3 r2
  let (t4, r4) := flipTrit c.c4 r3
  let (t5, r5) := flipTrit c.c5 r4
  (⟨t0, t1, t2, t3, t4, t5⟩, r5)

/-- Every trit with the other sign (43_byte_encoder_8b6t.md R110). -/
def invertCode (c : Code) : Code :=
  ⟨c.c0.negate, c.c1.negate, c.c2.negate, c.c3.negate, c.c4.negate, c.c5.negate⟩

/-- Sub-step 1 and the sum capture: decompose, record, add the sum to the running sum (43_byte_encoder_8b6t.md R105,
R107). -/
def startByte (index d : Nat) (rs : Int) : ByteWork :=
  { code := decompose d, rs := rs + (decompose d).sum, records := [decomposeRecord index d (decompose d)] }

/-- Sub-step 2, driven by the captured sum (43_byte_encoder_8b6t.md R108). -/
def correctPositive (index : Nat) (sum : Int) (w : ByteWork) : ByteWork :=
  if 0 < sum then
    let (code, rs) := flipPositives w.code w.rs
    { code := code, rs := rs, records := w.records ++ [dcBalanceRecord index sum w.code code rs] }
  else w

/-- Sub-step 3, the full condition as stated (43_byte_encoder_8b6t.md R109, R110, R115). -/
def correctAlternation (index : Nat) (previousSum : Int) (w : ByteWork) : ByteWork :=
  let currentSum := w.code.sum
  if sameSigned currentSum previousSum then
    let code := invertCode w.code
    let rs := w.rs - currentSum * 2
    { code := code, rs := rs,
      records := w.records ++ [dcAccumulationRecord index previousSum currentSum w.code code rs] }
  else w

/-- Sub-steps 1 to 3 of the byte with 1-based number `index` (43_byte_encoder_8b6t.md R104). -/
def encodeByte (index d : Nat) (rs : Int) (prev : Code) : ByteWork :=
  correctAlternation index prev.sum
    (correctPositive index (decompose d).sum (startByte index d rs))

/-- Sub-steps 4 and 5: commit the carry, append the six trits, append the final record
(43_byte_encoder_8b6t.md R112, R113). -/
def commitByte (index : Nat) (w : ByteWork) (s : State) : State :=
  let committed := appendOutAll w.code.vals { s with runningSum := w.rs, prevCode := w.code }
  traceAppend (finalRecord index w.code committed.output.length w.rs) committed

/-- The whole byte step: the records of sub-steps 1 to 3, the commit, and the advance (43_byte_encoder_8b6t.md
R104). -/
def emitByte (d : Nat) (s : State) : State :=
  let w := encodeByte (s.symIdx + 1) d s.runningSum s.prevCode
  finishSymbol (commitByte (s.symIdx + 1) w (traceAppendAll w.records s))

/-- BYTE d, taken only when its rule takes it (43_byte_encoder_8b6t.md R104). -/
def execByte (d : Byte) (s : State) : Out :=
  if symbolEnabled .eightB6T s then .next (emitByte d.toNat s) else .refused .stepNotEnabled

end Sys2Proof.Machine
end

