-- ==== Sys2Proof/Machine/Command.lean ====
section
/-! DEFINITION. The four commands and the write to CMD that issues them (40_host_interface.md R69–R72). -/

namespace Sys2Proof.Machine

/-- The effect of a command in a state that is not BUSY (40_host_interface.md R70, R71, R72). -/
def commandEffect : Command → State → State
  | .nop, s => s
  | .encode2b1q, s => startFrame .twoB1Q s
  | .encode8b6t, s => startFrame .eightB6T s
  | .clear, s => resetBlock s

/-- NOP: `skip` (40_host_interface.md R70). -/
def execNop (s : State) : Out := unlessBusy s fun s => .next (commandEffect .nop s)

/-- ENCODE.2B1Q (40_host_interface.md R71). -/
def execEncode2b1q (s : State) : Out := unlessBusy s fun s => .next (commandEffect .encode2b1q s)

/-- ENCODE.8B6T (40_host_interface.md R71). -/
def execEncode8b6t (s : State) : Out := unlessBusy s fun s => .next (commandEffect .encode8b6t s)

/-- CLEAR: `apply Reset` (40_host_interface.md R72). -/
def execClear (s : State) : Out := unlessBusy s fun s => .next (commandEffect .clear s)

/-- WR CMD: decode the word and issue its command, or raise IllegalCommand (40_host_interface.md R69). -/
def execWrCmd (c : Word) (s : State) : Out :=
  unlessBusy s fun s =>
    match decodeCommand c with
    | some k => .next (commandEffect k s)
    | none => .next (raiseIllegalCommand c s)

end Sys2Proof.Machine
end

