-- ==== Sys2Proof/Machine/Pair.lean ====
section
/-! DEFINITION. The 2B1Q pair encoder (42_pair_encoder_2b1q.md). -/

namespace Sys2Proof.Machine

/-- `Table2B1Q(p, isPos)`, the pair by its two bits, first character first (42_pair_encoder_2b1q.md R95). -/
def table2B1Q (b1 b0 isPos : Bool) : Int :=
  match b1, b0, isPos with
  | false, false, true => 1
  | false, false, false => -1
  | false, true, true => 3
  | false, true, false => -3
  | true, false, true => -1
  | true, false, false => 1
  | true, true, true => -3
  | true, true, false => 3

/-- `PREV_LEVEL <- level` (42_pair_encoder_2b1q.md R97). -/
def setPrevLevel (level : Int) (s : State) : State := { s with prevLevel := level }

/-- The common part of the pair operations: append the level, carry it, record the step, advance
(42_pair_encoder_2b1q.md R93, R97, R102). -/
def emitLevel (p : Nat) (level : Int) (s : State) : State :=
  let emitted := setPrevLevel level (appendOut level s)
  finishSymbol (traceAppend (pairRecord (s.symIdx + 1) p s.prevLevel level emitted.output.length) emitted)

/-- A pair step, taken only when its rule takes it (42_pair_encoder_2b1q.md R93). -/
def pairStep (p : Nat) (level : Int) (s : State) : Out :=
  if symbolEnabled .twoB1Q s then .next (emitLevel p level s) else .refused .stepNotEnabled

/-- PAIR.00: `level <- (PREV_LEVEL > 0) ? 1 : -1` (42_pair_encoder_2b1q.md R98). -/
def execPair00 (s : State) : Out := pairStep 0 (if isPreviousPositive s.prevLevel then 1 else -1) s

/-- PAIR.01: `level <- (PREV_LEVEL > 0) ? 3 : -3` (42_pair_encoder_2b1q.md R99). -/
def execPair01 (s : State) : Out := pairStep 1 (if isPreviousPositive s.prevLevel then 3 else -3) s

/-- PAIR.10: `level <- (PREV_LEVEL > 0) ? -1 : 1` (42_pair_encoder_2b1q.md R100). -/
def execPair10 (s : State) : Out := pairStep 2 (if isPreviousPositive s.prevLevel then -1 else 1) s

/-- PAIR.11: `level <- (PREV_LEVEL > 0) ? -3 : 3` (42_pair_encoder_2b1q.md R101). -/
def execPair11 (s : State) : Out := pairStep 3 (if isPreviousPositive s.prevLevel then -3 else 3) s

end Sys2Proof.Machine
end

