-- ==== Sys2Proof/Machine/Validator.lean ====
section
/-! DEFINITION. Frame validation and the VALIDATE step (41_validator.md). -/

namespace Sys2Proof.Machine

/-- `Valid`, or `Failure(kind, info)` (41_validator.md R85). -/
inductive Verdict where
  | valid
  | failure (kind : ErrCode) (info : Nat)
deriving DecidableEq, Repr

/-- "A character is legal exactly when its code is 0x30 ('0') or 0x31 ('1')" (41_validator.md R86). -/
def isBinary (c : Byte) : Bool := c == 0x30#8 || c == 0x31#8

/-- The index, counted from `k`, of the first character that is neither 0x30 nor 0x31 (41_validator.md R87, R89). -/
def firstInvalid : List Byte → Nat → Option Nat
  | [], _ => none
  | c :: cs, k => if isBinary c then firstInvalid cs (k + 1) else some k

/-- The failure kind of a scheme's length check (41_validator.md R90). -/
def wrongLength : Scheme → ErrCode
  | .twoB1Q => .wrongLengthFor2B1Q
  | .eightB6T => .wrongLengthFor8B6T

/-- `Validate(IN, s)`: empty frame, then characters, then the scheme's length (41_validator.md R87; priority
92_eei_decisions.md D9). -/
def validateFrame (inp : List Byte) (sch : Scheme) : Verdict :=
  if inp.length = 0 then .valid
  else
    match firstInvalid inp 0 with
    | some k => .failure .invalidCharacter k
    | none =>
      if inp.length % symbolWidth sch = 0 then .valid
      else .failure (wrongLength sch) inp.length

/-- What the VALIDATE step does with a verdict (41_validator.md R92). -/
def admitFrame (v : Verdict) (s : State) : State :=
  match v with
  | .failure kind info => raiseValidationFailure kind info s
  | .valid =>
    if s.input.length = 0 then { s with run := .done }
    else
      { traceAppend (groupingRecord (symbolCount s))
          (traceAppend (inputAnalysisRecord s.input.length (symbolCount s)) s) with
        run := .busy .symbols }

/-- VALIDATE, "taken when STATE = BUSY and PHASE = VALIDATE" (41_validator.md R92). -/
def execValidate (s : State) : Out :=
  if s.run = .busy .validate then .next (admitFrame (validateFrame s.input s.scheme) s)
  else .refused .stepNotEnabled

end Sys2Proof.Machine
end

