-- ==== Sys2Proof/Machine/Dispatch.lean ====
section
/-! DEFINITION. One arm per instruction: each a direct call of its meaning. -/

namespace Sys2Proof.Machine

def exec (i : Instr) (s : State) : Host.Outcome State Fault Refusal :=
  match i with
  | .nop => Sys2Proof.Machine.execNop s
  | .encode2b1q => Sys2Proof.Machine.execEncode2b1q s
  | .encode8b6t => Sys2Proof.Machine.execEncode8b6t s
  | .clear => Sys2Proof.Machine.execClear s
  | .wrCmd c => Sys2Proof.Machine.execWrCmd c s
  | .wrInData v => Sys2Proof.Machine.execWrInData v s
  | .rdStatus => Sys2Proof.Machine.execRdStatus s
  | .rdErrInfo => Sys2Proof.Machine.execRdErrInfo s
  | .rdInLen => Sys2Proof.Machine.execRdInLen s
  | .rdOutLen => Sys2Proof.Machine.execRdOutLen s
  | .rdTraceLen => Sys2Proof.Machine.execRdTraceLen s
  | .rdSymIdx => Sys2Proof.Machine.execRdSymIdx s
  | .rdPrevLevel => Sys2Proof.Machine.execRdPrevLevel s
  | .rdRunningSum => Sys2Proof.Machine.execRdRunningSum s
  | .rdPrevCode => Sys2Proof.Machine.execRdPrevCode s
  | .rdPrevSum => Sys2Proof.Machine.execRdPrevSum s
  | .rdIn k => Sys2Proof.Machine.execRdIn k s
  | .rdOut k => Sys2Proof.Machine.execRdOut k s
  | .rdTr k f => Sys2Proof.Machine.execRdTr k f s
  | .pair00 => Sys2Proof.Machine.execPair00 s
  | .pair01 => Sys2Proof.Machine.execPair01 s
  | .pair10 => Sys2Proof.Machine.execPair10 s
  | .pair11 => Sys2Proof.Machine.execPair11 s
  | .byte d => Sys2Proof.Machine.execByte d s
  | .validate => Sys2Proof.Machine.execValidate s

end Sys2Proof.Machine
end

