-- ==== Sys2Proof/Machine/Step.lean ====
section
/-! DEFINITION. One step of the machine: one host access, one encoder step, or the reset input, in the order that
`pending` holds (20_memory.md R48; log 1). -/

namespace Sys2Proof.Machine

/-- A host item: decoded, then run (30_encoding.md R68). -/
def hostStep (x : Item) (s : State) : Host.Outcome State Fault Refusal :=
  match decode x with
  | .ok i => exec i s
  | .error e => rejectHostItem e s

/-- The encoder's turn: it has a step exactly when STATE = BUSY (10_state.md R33). -/
def encoderStep (s : State) : Host.Outcome State Fault Refusal :=
  match s.run with
  | .busy phase =>
    match fetchItem phase s with
    | .error f => .fault f
    | .ok x =>
      match decode x with
      | .ok i => exec i s
      | .error _ => .fault .nonBinarySymbol
  | .idle => .refused .encoderIdle
  | .done => .refused .encoderIdle
  | .error => .refused .encoderIdle

/-- The next event of the total order (20_memory.md R48). When nothing is pending the encoder goes on with its frame:
"while STATE = BUSY, the encoder agent eventually takes its next step" (70_reset_and_hazards.md R155; log 1). -/
def step (s : State) : Host.Outcome State Fault Refusal :=
  match s.pending with
  | [] => encoderStep s
  | .encoder :: rest => encoderStep { s with pending := rest }
  | .reset :: rest => .next (resetBlock { s with pending := rest })
  | .command c :: rest => hostStep (.cmd c) { s with pending := rest }
  | .access h ops :: rest => hostStep (.access h ops) { s with pending := rest }

/-- `s` with the instruction of one opcode-table word where `step` takes its next one (logs 6, 7). -/
def State.withFetchWord (s : State) (nbits w : Nat) : State :=
  match tableItem nbits w with
  | some x => placeItem x s
  | none => s

end Sys2Proof.Machine
end

