-- ==== Sys2Proof/Machine/Frame.lean ====
section
/-! DEFINITION. The frame function `Encode(IN, s)` (40_host_interface.md R80): "a pure function from (validated input,
scheme) to (result, trace)", written over whole lists, without the machine's state. Statements compare the machine's
run with it. -/

namespace Sys2Proof.Machine

/-- ConversionResult: OUT and TRACE at DONE (00_scope.md, glossary). -/
structure FrameResult where
  output : List Int
  trace : List TraceRecord
deriving DecidableEq, Repr

/-- The bit of a validated character (20_memory.md R38). -/
def charBit (c : Byte) : Bool := c == 0x31#8

/-- `p = 2·bit(c0) + bit(c1)` (30_encoding.md R58). -/
def pairValue (b1 b0 : Bool) : Nat := 2 * b1.toNat + b0.toNat

/-- The pairs of a 2B1Q frame, in order (20_memory.md R38). -/
def framePairs : List Byte → List (Bool × Bool)
  | c0 :: c1 :: cs => (charBit c0, charBit c1) :: framePairs cs
  | _ => []

/-- The byte values of an 8B6T frame, in order, each most significant bit first (20_memory.md R38). -/
def frameBytes : List Byte → List Nat
  | c0 :: c1 :: c2 :: c3 :: c4 :: c5 :: c6 :: c7 :: cs =>
    ((charBit c0).toNat * 128 + (charBit c1).toNat * 64 + (charBit c2).toNat * 32 + (charBit c3).toNat * 16
      + (charBit c4).toNat * 8 + (charBit c5).toNat * 4 + (charBit c6).toNat * 2 + (charBit c7).toNat)
      :: frameBytes cs
  | _ => []

/-- The fold of the 2B1Q step over the pairs from symbol `j` on (42_pair_encoder_2b1q.md R93–R102). -/
def encodePairs : List (Bool × Bool) → Nat → Int → FrameResult
  | [], _, _ => { output := [], trace := [] }
  | (b1, b0) :: ps, j, prev =>
    let level := table2B1Q b1 b0 (isPreviousPositive prev)
    let rest := encodePairs ps (j + 1) level
    { output := level :: rest.output
      trace := (pairRecord (j + 1) (pairValue b1 b0) prev level (j + 1)).stamp .twoB1Q :: rest.trace }

/-- The fold of the 8B6T step over the bytes from symbol `j` on (43_byte_encoder_8b6t.md R104–R113). -/
def encodeBytes : List Nat → Nat → Int → Code → FrameResult
  | [], _, _, _ => { output := [], trace := [] }
  | d :: ds, j, rs, prev =>
    let w := encodeByte (j + 1) d rs prev
    let rest := encodeBytes ds (j + 1) w.rs w.code
    { output := w.code.vals ++ rest.output
      trace := (w.records ++ [finalRecord (j + 1) w.code (6 * (j + 1)) w.rs]).map (TraceRecord.stamp .eightB6T)
        ++ rest.trace }

/-- The two preliminary records (44_trace_recorder.md R126). -/
def preliminaryRecords (sch : Scheme) (len : Nat) : List TraceRecord :=
  [inputAnalysisRecord len (len / symbolWidth sch), groupingRecord (len / symbolWidth sch)].map
    (TraceRecord.stamp sch)

/-- The symbols' results (40_host_interface.md R80). -/
def encodeSymbols (inp : List Byte) : Scheme → FrameResult
  | .twoB1Q => encodePairs (framePairs inp) 0 0
  | .eightB6T => encodeBytes (frameBytes inp) 0 0 Code.zero

/-- `Encode(IN, s)` (40_host_interface.md R80): a failure's kind and info, or the result. -/
def encodeFrame (inp : List Byte) (sch : Scheme) : Except (ErrCode × Nat) FrameResult :=
  match validateFrame inp sch with
  | .failure kind info => .error (kind, info)
  | .valid =>
    if inp.length = 0 then .ok { output := [], trace := [] }
    else
      .ok { output := (encodeSymbols inp sch).output
            trace := preliminaryRecords sch inp.length ++ (encodeSymbols inp sch).trace }

end Sys2Proof.Machine
end

