-- ==== Sys2Proof/Machine/HostProgram.lean ====
section
/-! DEFINITION. Host programs (30_encoding.md R65–R67): their lines, what a line becomes, the orders of events that carry
a program out, and the end of a run and its observation (40_host_interface.md R84). Labels, comments and number notation
are text and are not here (log 17). -/

namespace Sys2Proof.Machine

/-- The registers a host can read, by the names of 10_state.md R18. -/
inductive ReadReg where
  | status | errInfo | inLen | outLen | traceLen | symIdx | prevLevel | runningSum | prevCode | prevSum
deriving DecidableEq, Repr

/-- The register's access key, which is its number (10_state.md R18, 30_encoding.md R57). -/
def ReadReg.key : ReadReg → Byte
  | .status => 0x01#8
  | .errInfo => 0x02#8
  | .inLen => 0x04#8
  | .outLen => 0x05#8
  | .traceLen => 0x06#8
  | .symIdx => 0x07#8
  | .prevLevel => 0x08#8
  | .runningSum => 0x09#8
  | .prevCode => 0x0A#8
  | .prevSum => 0x0B#8

/-- A line of a host program: the base forms of 30_encoding.md R65 and the pseudo-instructions of R66. The local name
that a read fills is the host's; the word returned goes to `replies` (log 2). -/
inductive HostLine where
  | wrCmd (c : Word)
  | wrInData (v : Word)
  | rd (r : ReadReg)
  | rdIn (k : Word)
  | rdOut (k : Word)
  | rdTr (k f : Word)
  | nop
  | enc2b1q
  | enc8b6t
  | clear
  | push (b : Bool)
  | pushs (s : List Byte)
  | wait
deriving DecidableEq, Repr

/-- What the host does for a line: one access, or WAIT's loop (30_encoding.md R66). -/
inductive HostOp where
  | access (h : Byte) (ops : List Word)
  /-- `L: RD r, STATUS`, then `if (r & 3) == 1 goto L`. -/
  | wait
deriving DecidableEq, Repr

/-- The expansion of a line, in order (30_encoding.md R65, R66). -/
def HostLine.expand : HostLine → List HostOp
  | .wrCmd c => [.access 0x80#8 [c]]
  | .wrInData v => [.access 0x83#8 [v]]
  | .rd r => [.access r.key []]
  | .rdIn k => [.access 0x20#8 [k]]
  | .rdOut k => [.access 0x40#8 [k]]
  | .rdTr k f => [.access 0x60#8 [k, f]]
  | .nop => [.access 0x80#8 [0x00000000#32]]
  | .enc2b1q => [.access 0x80#8 [0x00000001#32]]
  | .enc8b6t => [.access 0x80#8 [0x00000005#32]]
  | .clear => [.access 0x80#8 [0x00000002#32]]
  | .push b => [.access 0x83#8 [(charOf b).setWidth 32]]
  | .pushs s => s.map fun ch => .access 0x83#8 [ch.setWidth 32]
  | .wait => [.wait]

/-- A program's operations, in line order (30_encoding.md R67). -/
def expandProgram (p : List HostLine) : List HostOp := p.flatMap HostLine.expand

/-- The host access an operation issues, each time round for WAIT. -/
def HostOp.event : HostOp → Event
  | .access h ops => .access h ops
  | .wait => .access ReadReg.status.key []

/-- WAIT goes round again on a STATUS word with `(r & 3) == 1` (30_encoding.md R66). -/
def waitsAgain (r : Word) : Bool := r &&& 3#32 == 1#32

/-- Whether the host issues the operation's access again, from the word its access returned (30_encoding.md R66). -/
def HostOp.repeats : HostOp → Option Word → Bool
  | .access _ _, _ => false
  | .wait, none => false
  | .wait, some r => waitsAgain r

/-- The host, not the encoder or the reset input, makes this event. -/
def Event.fromHost : Event → Bool
  | .command _ => true
  | .access _ _ => true
  | .encoder => false
  | .reset => false

/-- What is left of a program after an event that led to state `t`: a host event must be the access of the next
operation, which stays as long as it repeats; the encoder and the reset input leave the program alone. -/
def advanceProgram (p : List HostOp) (e : Event) (t : State) : Option (List HostOp) :=
  if e.fromHost then
    match p with
    | [] => none
    | op :: rest =>
      if e = op.event then some (if op.repeats t.replies.getLast? then op :: rest else rest) else none
  else some p

/-- The block and the host together, over one order of events: what is left of the program and the block's state at the
end (30_encoding.md R67, 20_memory.md R48). No value where a step is refused or faults ("a program that makes one has no
meaning", 70_reset_and_hazards.md R151) or where the order is not the program's. -/
def carryOut : List HostOp → List Event → State → Option (List HostOp × State)
  | p, [], s => some (p, { s with pending := [] })
  | p, e :: es, s =>
    match step { s with pending := e :: es } with
    | .next t =>
      match advanceProgram p e t with
      | some p' => carryOut p' es t
      | none => none
    | .fault _ => none
    | .refused _ => none

/-- The order of events carries the whole program out from `s`: its accesses in line order, every WAIT as often as the
words it got say, encoder turns and reset assertions anywhere. -/
def carriesOut (p : List HostLine) (events : List Event) (s : State) : Bool :=
  match carryOut (expandProgram p) events s with
  | some (left, _) => left.isEmpty
  | none => false

/-! ### The end of a run -/

/-- The block without the model's own event list and reply list: what 10_state.md R15 calls the state, and what is
observed at the end of a run, the register file, IN, OUT and TRACE (40_host_interface.md R84). -/
def State.block (s : State) : State := { s with pending := [], replies := [] }

/-- The end of a run: "the host has issued its last access and STATE ≠ BUSY" (40_host_interface.md R84). Encoder turns
and reset assertions may still be to come. -/
def State.runEnded (s : State) : Bool := s.pending.all (fun e => !e.fromHost) && !s.busy

/-- The observation of a run: the block at its end, if the end comes within `k` steps (40_host_interface.md R84). -/
def observeRun : Nat → State → Option State
  | 0, s => if s.runEnded then some s.block else none
  | k + 1, s =>
    if s.runEnded then some s.block
    else
      match step s with
      | .next t => observeRun k t
      | .fault _ => none
      | .refused _ => none

end Sys2Proof.Machine
end

