-- ==== Sys2Proof/Safety.lean ====
section
/-! DEFINITION. What claims about the machine are stated in: its invariant (10_state.md R36 and the rules it rests on),
the states a run reaches, and runs that never meet a fault. -/

namespace Sys2Proof.Machine

/-- How many values a symbol appends to OUT (10_state.md R24). -/
def valuesPerSymbol : Scheme → Nat
  | .twoB1Q => 1
  | .eightB6T => 6

/-- The instruction answers a next state that differs from `s` in one thing: the host has received the word `w`. -/
def Returns (i : Instr) (s : State) (w : Word) : Prop :=
  exec i s = .next { s with replies := s.replies ++ [w] }

/-- ENCODE of a scheme (30_encoding.md R55). -/
def encodeCommand : Scheme → Instr
  | .twoB1Q => .encode2b1q
  | .eightB6T => .encode8b6t

/-- The reads of 30_encoding.md R57: every access key with DIR = 0. -/
def isRead : Instr → Bool
  | .rdStatus | .rdErrInfo | .rdInLen | .rdOutLen | .rdTraceLen | .rdSymIdx => true
  | .rdPrevLevel | .rdRunningSum | .rdPrevCode | .rdPrevSum => true
  | .rdIn _ | .rdOut _ | .rdTr _ _ => true
  | .nop | .encode2b1q | .encode8b6t | .clear | .wrCmd _ | .wrInData _ => false
  | .pair00 | .pair01 | .pair10 | .pair11 | .byte _ | .validate => false

/-- 10_state.md R27, R36(d) and 42_pair_encoder_2b1q.md R103: the carry and OUT of a 2B1Q frame. -/
structure PairCarry (s : State) : Prop where
  runningSum : s.runningSum = 0
  prevCode : s.prevCode = Code.zero
  levels : ∀ v ∈ s.output, v = -3 ∨ v = -1 ∨ v = 1 ∨ v = 3
  prevLevel : s.prevLevel = s.output.getLastD 0
  traceLen : 0 < s.symIdx → s.trace.length = 2 + s.symIdx

/-- 10_state.md R28, R29, R36(b), R36(c) and 43_byte_encoder_8b6t.md R119: the carry and OUT of an 8B6T frame. -/
structure ByteCarry (s : State) : Prop where
  prevLevel : s.prevLevel = 0
  runningSum : s.runningSum = s.output.sum
  trits : ∀ v ∈ s.output, v = -1 ∨ v = 0 ∨ v = 1
  firstCode : s.symIdx = 0 → s.prevCode = Code.zero
  lastCode : 0 < s.symIdx → s.prevCode.vals = s.output.drop (s.output.length - 6)
  traceLen : 0 < s.symIdx → 2 + 2 * s.symIdx ≤ s.trace.length ∧ s.trace.length ≤ 2 + 4 * s.symIdx

/-- Nothing encoded yet in this frame. -/
structure NothingEmitted (s : State) : Prop where
  symIdx : s.symIdx = 0
  output : s.output = []
  trace : s.trace = []

/-- A frame that passed validation and has symbols left (10_state.md R25, R33; 41_validator.md R87). -/
structure FrameUnderWay (s : State) : Prop where
  binary : ∀ c ∈ s.input, c = 0x30#8 ∨ c = 0x31#8
  aligned : s.input.length % symbolWidth s.scheme = 0
  symbolsLeft : s.symIdx < symbolCount s
  preliminary : s.symIdx = 0 → s.trace.length = 2

/-- The invariant of the machine: 10_state.md R36 (a)–(e) with the facts about STATE, ERR_CODE, IN and TRACE that the
rules give. -/
structure State.Inv (s : State) : Prop where
  capacity : Memory.wf s
  errorState : s.run = .error ↔ s.errCode ≠ .none
  errorInfo : s.errCode = .none → s.errInfo = 0#32
  outLen : s.output.length = valuesPerSymbol s.scheme * s.symIdx
  symbolsRead : symbolWidth s.scheme * s.symIdx ≤ s.input.length
  pairCarry : s.scheme = .twoB1Q → PairCarry s
  byteCarry : s.scheme = .eightB6T → ByteCarry s
  traceScheme : ∀ r ∈ s.trace, r.scheme = s.scheme
  snapshots : ∀ r ∈ s.trace, r.hasData = true → r.snapLen ≤ s.output.length
  noTrace : s.symIdx = 0 → s.run ≠ .busy .symbols → s.trace = []
  idle : s.run = .idle → NothingEmitted s
  validating : s.run = .busy .validate → NothingEmitted s
  underWay : s.run = .busy .symbols → FrameUnderWay s
  validationError : s.run = .error → s.errCode ≠ .illegalCommand → NothingEmitted s

/-- The states a run reaches from reset, for every capacity and every order of host accesses, encoder turns and reset
assertions. -/
inductive Reachable : State → Prop where
  | start (c : Config) (events : List Event) : Reachable { State.resetWith c with pending := events }
  | next (s t : State) : Reachable s → step s = .next t → Reachable t

/-- A run that never meets a fault, however long it goes on. -/
def RunsWithoutFault (s : State) : Prop := ∀ k f, Host.Core.run Sys2Proof.core k s ≠ .fault f

end Sys2Proof.Machine
end

