-- ==== Sys2Proof/Certificates/Slice0/Obligations.lean ====
section
/-! DEFINITION. The statements for the provers. Where a next state is written as a record update, the fields that are
not named are unchanged: that is the instruction's whole frame (IN, OUT, TRACE, every register, and the model's own
lists). -/

open Sys2Proof
open Sys2Proof.Machine

/-! ### Reset -/

/-- R146, R147: the reset input takes any state, BUSY included, to the reset values; CLEAR does the same where it is
not refused, and while BUSY it is refused. -/
def Obligations.ResetAndClearGiveResetState : Prop :=
  ∀ (s : State) (rest : List Event),
    (∃ t, step { s with pending := .reset :: rest } = .next t ∧ t.run = .idle ∧ t.scheme = .twoB1Q ∧
      t.errCode = .none ∧ t.errInfo = 0#32 ∧ t.input = [] ∧ t.output = [] ∧ t.trace = [] ∧ t.symIdx = 0 ∧
      t.prevLevel = 0 ∧ t.runningSum = 0 ∧ t.prevCode = ⟨.zero, .zero, .zero, .zero, .zero, .zero⟩ ∧
      t.cfg = s.cfg ∧ t.pending = rest ∧ t.replies = s.replies) ∧
    (s.busy = false → ∃ t, exec .clear s = .next t ∧
      step { s with pending := .reset :: s.pending } = .next t) ∧
    (s.busy = true → exec .clear s = .refused .accessWhileBusy)

/-- R18's reset column, for every capacity: after reset every readable register reads as 0. -/
def Obligations.ResetRegistersReadZero : Prop :=
  ∀ c : Config, ∀ i ∈ [Instr.rdStatus, .rdErrInfo, .rdInLen, .rdOutLen, .rdTraceLen, .rdSymIdx, .rdPrevLevel,
    .rdRunningSum, .rdPrevCode, .rdPrevSum], Returns i (State.resetWith c) 0#32

/-! ### Commands -/

/-- R70: NOP is the command word 0, and changes no state. -/
def Obligations.NopChangesNothing : Prop :=
  decode (.cmd 0x00000000#32) = .ok .nop ∧ ∀ s : State, s.busy = false → exec .nop s = .next s

/-- R71: ENCODE starts one frame, with fresh carry, OUT and TRACE, and keeps IN. -/
def Obligations.EncodeStartsFreshFrame : Prop :=
  decode (.cmd 0x00000001#32) = .ok .encode2b1q ∧ decode (.cmd 0x00000005#32) = .ok .encode8b6t ∧
  ∀ s : State, s.busy = false →
    exec .encode2b1q s = .next { s with
      output := [], trace := [], symIdx := 0, prevLevel := 0, runningSum := 0,
      prevCode := ⟨.zero, .zero, .zero, .zero, .zero, .zero⟩, errCode := .none, errInfo := 0#32,
      scheme := .twoB1Q, run := .busy .validate } ∧
    exec .encode8b6t s = .next { s with
      output := [], trace := [], symIdx := 0, prevLevel := 0, runningSum := 0,
      prevCode := ⟨.zero, .zero, .zero, .zero, .zero, .zero⟩, errCode := .none, errInfo := 0#32,
      scheme := .eightB6T, run := .busy .validate }

/-- R72: CLEAR is the command word 2 and applies Reset: every register takes its reset value and IN, OUT and TRACE are
empty. -/
def Obligations.ClearAppliesReset : Prop :=
  decode (.cmd 0x00000002#32) = .ok .clear ∧
  ∀ s : State, s.busy = false →
    exec .clear s = .next { s with
      run := .idle, scheme := .twoB1Q, errCode := .none, errInfo := 0#32, input := [], output := [], trace := [],
      symIdx := 0, prevLevel := 0, runningSum := 0, prevCode := ⟨.zero, .zero, .zero, .zero, .zero, .zero⟩ }

/-- R69, R56: WR CMD (key 0x80) refuses while BUSY; otherwise it acts as the command its word names, and for every
other word raises IllegalCommand. -/
def Obligations.WriteCommandIssuesItsCommand : Prop :=
  (∀ c, decode (.access 0x80#8 [c]) = .ok (.wrCmd c)) ∧
  ∀ s : State,
    (s.busy = true → ∀ c, exec (.wrCmd c) s = .refused .accessWhileBusy) ∧
    (s.busy = false →
      exec (.wrCmd 0x00000000#32) s = .next s ∧
      (∃ t, exec (.wrCmd 0x00000001#32) s = .next t ∧ exec .encode2b1q s = .next t) ∧
      (∃ t, exec (.wrCmd 0x00000005#32) s = .next t ∧ exec .encode8b6t s = .next t) ∧
      (∃ t, exec (.wrCmd 0x00000002#32) s = .next t ∧ exec .clear s = .next t) ∧
      ∀ c, c ≠ 0x00000000#32 → c ≠ 0x00000001#32 → c ≠ 0x00000005#32 → c ≠ 0x00000002#32 →
        exec (.wrCmd c) s = .next { s with run := .error, errCode := .illegalCommand, errInfo := c })

/-- R133: an illegal word, at CMD or through WR CMD, sets STATE, ERR_CODE and ERR_INFO; "Nothing else changes", so the
results of an earlier frame stay. -/
def Obligations.IllegalCommandKeepsResults : Prop :=
  ∀ (s : State) (c : Word) (rest : List Event), s.busy = false →
    c ≠ 0x00000000#32 → c ≠ 0x00000001#32 → c ≠ 0x00000005#32 → c ≠ 0x00000002#32 →
    step { s with pending := .command c :: rest } =
      .next { s with pending := rest, run := .error, errCode := .illegalCommand, errInfo := c } ∧
    step { s with pending := .access 0x80#8 [c] :: rest } =
      .next { s with pending := rest, run := .error, errCode := .illegalCommand, errInfo := c }

/-- R55, R56: the four legal words decode to their commands and every other word is an illegal command. -/
def Obligations.CommandDecoderIsTotal : Prop :=
  decode (.cmd 0x00000000#32) = .ok .nop ∧ decode (.cmd 0x00000001#32) = .ok .encode2b1q ∧
  decode (.cmd 0x00000005#32) = .ok .encode8b6t ∧ decode (.cmd 0x00000002#32) = .ok .clear ∧
  ∀ c : Word, c ≠ 0x00000000#32 → c ≠ 0x00000001#32 → c ≠ 0x00000005#32 → c ≠ 0x00000002#32 →
    decode (.cmd c) = .error (.illegalCommand c)

/-- R54: read by its fields, a word is a command exactly when RSV = 0 and either OP = 1, or OP is 0 or 2 and
SCHEME = 0. -/
def Obligations.CommandWordsByTheirFields : Prop :=
  ∀ c : Word, (∃ i, decode (.cmd c) = .ok i) ↔
    cmdRsv c = 0#29 ∧ (cmdOp c = 1#2 ∨ ((cmdOp c = 0#2 ∨ cmdOp c = 2#2) ∧ cmdScheme c = false))

/-! ### Host accesses -/

/-- R73: WR IN_DATA (key 0x83) appends `v[7:0]` and changes nothing else; it is refused while BUSY and when IN is full. -/
def Obligations.WriteInDataAppendsLowByte : Prop :=
  (∀ v, decode (.access 0x83#8 [v]) = .ok (.wrInData v)) ∧
  ∀ (s : State) (v : Word),
    (s.busy = true → exec (.wrInData v) s = .refused .accessWhileBusy) ∧
    (s.busy = false → (∃ m, s.cfg.maxFrameChars = some m ∧ s.input.length = m.val) →
      exec (.wrInData v) s = .refused .inputFull) ∧
    (s.busy = false → (∀ m, s.cfg.maxFrameChars = some m → s.input.length ≠ m.val) →
      exec (.wrInData v) s = .next { s with input := s.input ++ [BitVec.ofNat 8 (v.toNat % 256)] })

/-- R74: RD STATUS (key 0x01) is admitted in every state and returns `{26'b0, ERR_CODE[2:0], SCHEME, STATE[1:0]}`. -/
def Obligations.StatusReadShowsItsFields : Prop :=
  decode (.access 0x01#8 []) = .ok .rdStatus ∧
  ∀ s : State, ∃ w, Returns .rdStatus s w ∧ w.extractLsb' 6 26 = 0#26 ∧
    (w.extractLsb' 0 2 = 0#2 ↔ s.run = .idle) ∧ (w.extractLsb' 0 2 = 1#2 ↔ s.busy = true) ∧
    (w.extractLsb' 0 2 = 2#2 ↔ s.run = .done) ∧ (w.extractLsb' 0 2 = 3#2 ↔ s.run = .error) ∧
    (w.getLsbD 2 = true ↔ s.scheme = .eightB6T) ∧
    (w.extractLsb' 3 3 = 0#3 ↔ s.errCode = .none) ∧ (w.extractLsb' 3 3 = 1#3 ↔ s.errCode = .invalidCharacter) ∧
    (w.extractLsb' 3 3 = 2#3 ↔ s.errCode = .wrongLengthFor2B1Q) ∧
    (w.extractLsb' 3 3 = 3#3 ↔ s.errCode = .wrongLengthFor8B6T) ∧
    (w.extractLsb' 3 3 = 4#3 ↔ s.errCode = .illegalCommand)

/-- R75: the other register reads, each in its format of R18. A count or a signed value reads exactly wherever it fits
32 bits; where it does not, the read still completes (with the free value of log 4, which the spec leaves open).
PREV_SUM is computed from PREV_CODE, and reads of 0x00, 0x03 and 0x0C–0x1F are no instructions. -/
def Obligations.RegisterReadsReturnTheRegister : Prop :=
  (∀ q ∈ [(0x02#8, Instr.rdErrInfo), (0x04#8, .rdInLen), (0x05#8, .rdOutLen), (0x06#8, .rdTraceLen),
    (0x07#8, .rdSymIdx), (0x08#8, .rdPrevLevel), (0x09#8, .rdRunningSum), (0x0A#8, .rdPrevCode),
    (0x0B#8, .rdPrevSum)], decode (.access q.1 []) = .ok q.2) ∧
  (∀ n : Byte, n = 0x00#8 ∨ n = 0x03#8 ∨ (0x0C#8 ≤ n ∧ n ≤ 0x1F#8) →
    decode (.access n []) = .error (.keyNotAdmitted n)) ∧
  ∀ s : State,
    (s.busy = false →
      Returns .rdErrInfo s s.errInfo ∧
      (∃ w, Returns .rdInLen s w ∧ (s.input.length < 2 ^ 32 → w.toNat = s.input.length)) ∧
      (∃ w, Returns .rdOutLen s w ∧ (s.output.length < 2 ^ 32 → w.toNat = s.output.length)) ∧
      (∃ w, Returns .rdTraceLen s w ∧ (s.trace.length < 2 ^ 32 → w.toNat = s.trace.length)) ∧
      (∃ w, Returns .rdSymIdx s w ∧ (s.symIdx < 2 ^ 32 → w.toNat = s.symIdx)) ∧
      (∃ w, Returns .rdPrevLevel s w ∧ (-2 ^ 31 ≤ s.prevLevel → s.prevLevel < 2 ^ 31 → w.toInt = s.prevLevel)) ∧
      (∃ w, Returns .rdRunningSum s w ∧
        (-2 ^ 31 ≤ s.runningSum → s.runningSum < 2 ^ 31 → w.toInt = s.runningSum)) ∧
      Returns .rdPrevCode s (s.prevCode.pack.setWidth 32) ∧
      (∃ w, Returns .rdPrevSum s w ∧ w.toInt = s.prevCode.c0.val + s.prevCode.c1.val + s.prevCode.c2.val +
        s.prevCode.c3.val + s.prevCode.c4.val + s.prevCode.c5.val)) ∧
    (s.busy = true → ∀ i ∈ [Instr.rdErrInfo, .rdInLen, .rdOutLen, .rdTraceLen, .rdSymIdx, .rdPrevLevel,
      .rdRunningSum, .rdPrevCode, .rdPrevSum], exec i s = .refused .accessWhileBusy)

/-- R42, R76: RDIN k (key 0x20) returns `zext_32(IN[k])` below IN_LEN, and is refused otherwise and while BUSY. -/
def Obligations.ReadInReturnsTheCharacter : Prop :=
  ∀ (s : State) (k : Word), decode (.access 0x20#8 [k]) = .ok (.rdIn k) ∧
    (s.busy = false → ∀ c, s.input[k.toNat]? = some c →
      ∃ w, Returns (.rdIn k) s w ∧ w.toNat = c.toNat) ∧
    (s.busy = false → s.input.length ≤ k.toNat → exec (.rdIn k) s = .refused .indexOutOfRange) ∧
    (s.busy = true → exec (.rdIn k) s = .refused .accessWhileBusy)

/-- R41, R77: RDOUT k (key 0x40) returns `twos_32(OUT[k])` below OUT_LEN, and is refused otherwise and while BUSY. -/
def Obligations.ReadOutReturnsTheValue : Prop :=
  ∀ (s : State) (k : Word), decode (.access 0x40#8 [k]) = .ok (.rdOut k) ∧
    (s.busy = false → ∀ v, s.output[k.toNat]? = some v →
      ∃ w, Returns (.rdOut k) s w ∧ (-2 ^ 31 ≤ v → v < 2 ^ 31 → w.toInt = v)) ∧
    (s.busy = false → s.output.length ≤ k.toNat → exec (.rdOut k) s = .refused .indexOutOfRange) ∧
    (s.busy = true → exec (.rdOut k) s = .refused .accessWhileBusy)

/-- R43, R78, R121, R123: RDTR k f (key 0x60) returns field f of record k in the field's format, for f = 0 … 13, KIND as
0 … 6 and BAL_NOTE as 0 … 2; it is refused while BUSY, at an index at or beyond TRACE_LEN, and for f above 13. Where both
are wrong the statement names no refusal (log 14). -/
def Obligations.ReadTraceReturnsTheField : Prop :=
  ∀ (s : State) (k : Word), (∀ f : Word, f.toNat ≤ 13 → decode (.access 0x60#8 [k, f]) = .ok (.rdTr k f)) ∧
    (s.busy = false → ∀ r, s.trace[k.toNat]? = some r →
      Returns (.rdTr k 0#32) s
        (match r.kind with
          | .inputAnalysis => 0#32 | .grouping => 1#32 | .pair => 2#32 | .byteDecompose => 3#32
          | .dcBalance => 4#32 | .dcAccumulation => 5#32 | .byteFinal => 6#32) ∧
      (∃ w, Returns (.rdTr k 1#32) s w ∧ (r.index < 2 ^ 32 → w.toNat = r.index)) ∧
      Returns (.rdTr k 2#32) s (if r.scheme = .eightB6T then 1#32 else 0#32) ∧
      (∃ w, Returns (.rdTr k 3#32) s w ∧
        ((r.kind = .inputAnalysis ∨ r.kind = .grouping) → 0 ≤ r.p0 → r.p0 < 2 ^ 32 → (w.toNat : Int) = r.p0) ∧
        (r.kind ≠ .inputAnalysis → r.kind ≠ .grouping → -2 ^ 31 ≤ r.p0 → r.p0 < 2 ^ 31 → w.toInt = r.p0)) ∧
      (∃ w, Returns (.rdTr k 4#32) s w ∧
        ((r.kind = .inputAnalysis ∨ r.kind = .grouping) → 0 ≤ r.p1 → r.p1 < 2 ^ 32 → (w.toNat : Int) = r.p1) ∧
        (r.kind ≠ .inputAnalysis → r.kind ≠ .grouping → -2 ^ 31 ≤ r.p1 → r.p1 < 2 ^ 31 → w.toInt = r.p1)) ∧
      (∃ w, Returns (.rdTr k 5#32) s w ∧ (-2 ^ 31 ≤ r.p2 → r.p2 < 2 ^ 31 → w.toInt = r.p2)) ∧
      Returns (.rdTr k 6#32) s (r.codeA.setWidth 32) ∧
      Returns (.rdTr k 7#32) s (r.codeB.setWidth 32) ∧
      Returns (.rdTr k 8#32) s (if r.hasData then 1#32 else 0#32) ∧
      (∃ w, Returns (.rdTr k 9#32) s w ∧ (r.snapLen < 2 ^ 32 → w.toNat = r.snapLen)) ∧
      Returns (.rdTr k 10#32) s (if r.hasBal then 1#32 else 0#32) ∧
      (∃ w, Returns (.rdTr k 11#32) s w ∧ (-2 ^ 31 ≤ r.balSum → r.balSum < 2 ^ 31 → w.toInt = r.balSum)) ∧
      Returns (.rdTr k 12#32) s (if r.balViol then 1#32 else 0#32) ∧
      Returns (.rdTr k 13#32) s
        (match r.balNote with | .none => 0#32 | .posFlip => 1#32 | .invert => 2#32) ∧
      ∀ f : Word, 13 < f.toNat → exec (.rdTr k f) s = .refused .fieldOutOfRange) ∧
    (s.busy = false → s.trace.length ≤ k.toNat → ∀ f : Word,
      (f.toNat ≤ 13 → exec (.rdTr k f) s = .refused .indexOutOfRange) ∧ ∃ why, exec (.rdTr k f) s = .refused why) ∧
    (s.busy = true → ∀ f, exec (.rdTr k f) s = .refused .accessWhileBusy)

/-- R151: while BUSY every host access but RD STATUS is refused: every command word, every access key with whatever
operands, admitted or not. -/
def Obligations.BusyWindowRefusesAllButStatus : Prop :=
  ∀ (s : State) (rest : List Event), s.busy = true →
    (∀ c, step { s with pending := .command c :: rest } = .refused .accessWhileBusy) ∧
    (∀ h ops, (h ≠ 0x01#8 ∨ ops ≠ []) →
      step { s with pending := .access h ops :: rest } = .refused .accessWhileBusy) ∧
    ∃ w, step { s with pending := .access 0x01#8 [] :: rest } =
      .next { s with pending := rest, replies := s.replies ++ [w] } ∧ w.extractLsb' 0 2 = 1#2

/-- R45: reads have no side effect and are idempotent: a read that answers changes nothing but what the host has
received, and the same read again returns the same word. -/
def Obligations.ReadsAreIdempotent : Prop :=
  ∀ (i : Instr) (s t : State), isRead i = true → exec i s = .next t →
    ∃ w, t = { s with replies := s.replies ++ [w] } ∧ Returns i s w ∧ Returns i t w

/-! ### VALIDATE -/

/-- R88: the empty frame is valid under both schemes; VALIDATE sets DONE and appends no record. -/
def Obligations.EmptyFrameIsDone : Prop :=
  ∀ s : State, s.run = .busy .validate → s.input = [] → exec .validate s = .next { s with run := .done }

/-- R92, R126: VALIDATE of a valid non-empty frame of n characters and m symbols appends INPUT_ANALYSIS(n, m) and
GROUPING(m) and enters PHASE SYMBOLS. -/
def Obligations.ValidFrameGetsPreliminaryRecords : Prop :=
  ∀ (s : State) (w : Nat), s.run = .busy .validate →
    (s.scheme = .twoB1Q ∧ w = 2 ∨ s.scheme = .eightB6T ∧ w = 8) →
    s.input ≠ [] → (∀ c ∈ s.input, c = 0x30#8 ∨ c = 0x31#8) → s.input.length % w = 0 →
    exec .validate s = .next { s with
      run := .busy .symbols
      trace := s.trace ++
        [{ kind := .inputAnalysis, index := 0, scheme := s.scheme, p0 := s.input.length,
           p1 := (s.input.length / w : Nat), p2 := 0, codeA := 0#12, codeB := 0#12, hasData := false, snapLen := 0,
           hasBal := false, balSum := 0, balViol := false, balNote := .none },
         { kind := .grouping, index := 0, scheme := s.scheme, p0 := (s.input.length / w : Nat), p1 := 0, p2 := 0,
           codeA := 0#12, codeB := 0#12, hasData := false, snapLen := 0, hasBal := false, balSum := 0,
           balViol := false, balNote := .none }] }

/-- R89: the first character that is neither 0x30 nor 0x31 is reported, under both schemes and whatever the length:
ERR_CODE = 1, ERR_INFO its index, STATE = ERROR, nothing else changed. -/
def Obligations.FirstInvalidCharacterIsReported : Prop :=
  ∀ (s : State) (k : Nat), s.run = .busy .validate →
    (∃ c, s.input[k]? = some c ∧ c ≠ 0x30#8 ∧ c ≠ 0x31#8) →
    (∀ j < k, s.input[j]? = some 0x30#8 ∨ s.input[j]? = some 0x31#8) →
    ∃ info : Word, exec .validate s = .next { s with run := .error, errCode := .invalidCharacter, errInfo := info } ∧
      (k < 2 ^ 32 → info.toNat = k)

/-- R90: a frame of legal characters whose length does not fit its scheme is reported under its scheme's own kind,
with ERR_INFO = IN_LEN and nothing else changed. -/
def Obligations.WrongLengthIsReported : Prop :=
  ∀ s : State, s.run = .busy .validate → (∀ c ∈ s.input, c = 0x30#8 ∨ c = 0x31#8) →
    (s.scheme = .twoB1Q → s.input.length % 2 ≠ 0 →
      ∃ info : Word,
        exec .validate s = .next { s with run := .error, errCode := .wrongLengthFor2B1Q, errInfo := info } ∧
        (s.input.length < 2 ^ 32 → info.toNat = s.input.length)) ∧
    (s.scheme = .eightB6T → s.input.length % 8 ≠ 0 →
      ∃ info : Word,
        exec .validate s = .next { s with run := .error, errCode := .wrongLengthFor8B6T, errInfo := info } ∧
        (s.input.length < 2 ^ 32 → info.toNat = s.input.length))

/-! ### PAIR -/

/-- R93, R97–R102: each pair operation, in every state that takes it, appends its level (by the sign of PREV_LEVEL),
carries it, appends its record, and advances; the last pair sets DONE. Nothing else changes. -/
def Obligations.PairOperationsEmitTheirLevels : Prop :=
  decode (.sym2 0x30#8 0x30#8) = .ok .pair00 ∧ decode (.sym2 0x30#8 0x31#8) = .ok .pair01 ∧
  decode (.sym2 0x31#8 0x30#8) = .ok .pair10 ∧ decode (.sym2 0x31#8 0x31#8) = .ok .pair11 ∧
  ∀ s : State, s.run = .busy .symbols → s.scheme = .twoB1Q → s.symIdx < s.input.length / 2 →
    ∀ op ∈ [(Instr.pair00, (0 : Int), (1 : Int), (-1 : Int)), (.pair01, 1, 3, -3), (.pair10, 2, -1, 1),
        (.pair11, 3, -3, 3)],
      exec op.1 s = .next { s with
        output := s.output ++ [if 0 < s.prevLevel then op.2.2.1 else op.2.2.2]
        prevLevel := if 0 < s.prevLevel then op.2.2.1 else op.2.2.2
        trace := s.trace ++
          [{ kind := .pair, index := s.symIdx + 1, scheme := .twoB1Q, p0 := op.2.1,
             p1 := if s.prevLevel = 0 then 0 else if 0 < s.prevLevel then 1 else 2,
             p2 := if 0 < s.prevLevel then op.2.2.1 else op.2.2.2, codeA := 0#12, codeB := 0#12, hasData := true,
             snapLen := s.output.length + 1, hasBal := false, balSum := 0, balViol := false, balNote := .none }]
        symIdx := s.symIdx + 1
        run := if s.symIdx + 1 = s.input.length / 2 then .done else .busy .symbols }

/-- R95, R96: the level of a pair with bits b1 b0, in every state that takes it, is the table's and has magnitude
1 + 2·b0 and sign + exactly when `(b1 = 0) = isPos`. -/
def Obligations.PairLevelsHaveTheClosedForm : Prop :=
  ∀ (s : State) (b1 b0 : Bool), s.run = .busy .symbols → s.scheme = .twoB1Q → s.symIdx < s.input.length / 2 →
    ∃ t, exec (pairOf b1 b0) s = .next t ∧
      t.prevLevel = table2B1Q b1 b0 (decide (0 < s.prevLevel)) ∧
      t.prevLevel.natAbs = 1 + 2 * b0.toNat ∧
      (0 < t.prevLevel ↔ ((b1 = false) ↔ 0 < s.prevLevel))

/-- R103(b): in every state of the invariant, a pair step's level is not 0, and its record says "neutral" exactly when
it is the frame's first. -/
def Obligations.NeutralIsOnlyTheFirstPair : Prop :=
  ∀ s t : State, s.Inv → s.run = .busy .symbols → s.scheme = .twoB1Q →
    (∃ b1 b0, exec (pairOf b1 b0) s = .next t) →
    t.prevLevel ≠ 0 ∧ ∃ r, t.trace = s.trace ++ [r] ∧ (r.p1 = 0 ↔ r.index = 1)

/-! ### BYTE -/

/-- R105: trit i of Decompose(d) is `floor(d / 3^i) mod 3 − 1`. -/
def Obligations.DecomposeGivesBaseThreeDigits : Prop :=
  ∀ d i : Nat, i < 6 → (decompose d).vals[i]? = some (((d / 3 ^ i % 3 : Nat) : Int) - 1)

/-- R106: on 0 … 255 Decompose is injective, its last trit is −1 below 243 and 0 from there on, its sum lies in
−6 … 4 with 51 positive, 45 zero and 160 negative, and it never gives the all-zero code. -/
def Obligations.DecomposeImageOnBytes : Prop :=
  (∀ d < 256, ∀ e < 256, decompose d = decompose e → d = e) ∧
  (∀ d < 256, ((decompose d).c5 = .neg ↔ d < 243) ∧ ((decompose d).c5 = .zero ↔ 243 ≤ d) ∧
    -6 ≤ (decompose d).sum ∧ (decompose d).sum ≤ 4 ∧ decompose d ≠ ⟨.zero, .zero, .zero, .zero, .zero, .zero⟩) ∧
  ((List.range 256).filter fun d => decide (0 < (decompose d).sum)).length = 51 ∧
  ((List.range 256).filter fun d => decide ((decompose d).sum = 0)).length = 45 ∧
  ((List.range 256).filter fun d => decide ((decompose d).sum < 0)).length = 160

/-- R108, R118: FlipPositives turns every +1 trit into −1, leaves the others, and lowers rs by 2 for each. -/
def Obligations.FlipPositivesFlipsEveryPlusOne : Prop :=
  ∀ (c : Code) (rs : Int),
    (flipPositives c rs).1.trits = c.trits.map (fun t => if t = .pos then .neg else t) ∧
    (flipPositives c rs).2 = rs - 2 * (c.trits.count .pos : Int)

/-- R110, R13: the inversion negates every trit; `same_signed` is both positive or both negative, so a zero never
triggers it. -/
def Obligations.InversionNegatesEveryTrit : Prop :=
  (∀ c : Code, (invertCode c).vals = c.vals.map (fun v => -v) ∧ (invertCode c).sum = -c.sum) ∧
  ∀ a b : Int, (sameSigned a b = true ↔ (0 < a ∧ 0 < b) ∨ (a < 0 ∧ b < 0))

/-- R104: BYTE d, in every state that takes it, is decomposition, sum capture, the flip driven by the captured sum, the
inversion driven by `same_signed(currentSum, previousSum)`, the commit, and the records of each in order; then the
advance. Nothing else changes. -/
def Obligations.ByteStepFollowsItsSubSteps : Prop :=
  ∀ (s : State) (d : Byte), s.run = .busy .symbols → s.scheme = .eightB6T → s.symIdx < s.input.length / 8 →
    let j := s.symIdx
    let code0 := decompose d.toNat
    let sum := code0.sum
    let rs0 := s.runningSum + sum
    let code1 := if 0 < sum then (flipPositives code0 rs0).1 else code0
    let rs1 := if 0 < sum then (flipPositives code0 rs0).2 else rs0
    let currentSum := code1.sum
    let previousSum := s.prevCode.sum
    let inverts := (0 < currentSum ∧ 0 < previousSum) ∨ (currentSum < 0 ∧ previousSum < 0)
    let code2 := if inverts then invertCode code1 else code1
    let rs2 := if inverts then rs1 - currentSum * 2 else rs1
    let blank : TraceRecord :=
      { kind := .byteDecompose, index := j + 1, scheme := .eightB6T, p0 := 0, p1 := 0, p2 := 0, codeA := 0#12,
        codeB := 0#12, hasData := false, snapLen := 0, hasBal := false, balSum := 0, balViol := false,
        balNote := .none }
    exec (.byte d) s = .next { s with
      runningSum := rs2
      prevCode := code2
      output := s.output ++ [code2.c0.val, code2.c1.val, code2.c2.val, code2.c3.val, code2.c4.val, code2.c5.val]
      trace := s.trace ++
        [{ blank with p0 := (d.toNat : Int), codeA := code0.pack }] ++
        (if 0 < sum then
          [{ blank with
             kind := .dcBalance, p0 := sum, codeA := code0.pack, codeB := code1.pack, hasBal := true, balSum := rs1,
             balViol := decide (3 < rs1.natAbs), balNote := .posFlip }]
         else []) ++
        (if inverts then
          [{ blank with
             kind := .dcAccumulation, p0 := previousSum, p1 := currentSum, codeA := code1.pack, codeB := code2.pack,
             hasBal := true, balSum := rs2, balViol := decide (3 < rs2.natAbs), balNote := .invert }]
         else []) ++
        [{ blank with
           kind := .byteFinal, codeA := code2.pack, hasData := true, snapLen := s.output.length + 6, hasBal := true,
           balSum := rs2, balViol := decide (3 < rs2.natAbs) }]
      symIdx := j + 1
      run := if j + 1 = s.input.length / 8 then .done else .busy .symbols }

/-- R111: a byte step adds exactly the final code's sum to RUNNING_SUM, and appends exactly that code, so what
RUNNING_SUM and the sum of OUT have in common stays. -/
def Obligations.ByteStepGrowsRunningSumByFinalCode : Prop :=
  ∀ (s : State) (d : Byte), s.run = .busy .symbols → s.scheme = .eightB6T → s.symIdx < s.input.length / 8 →
    ∃ t, exec (.byte d) s = .next t ∧ t.runningSum = s.runningSum + t.prevCode.sum ∧
      t.output = s.output ++ t.prevCode.vals ∧ t.runningSum - t.output.sum = s.runningSum - s.output.sum

/-- R115: after sub-step 2 the sum is never positive; it is negative when the captured sum was positive, and the
captured sum itself otherwise. -/
def Obligations.CurrentSumIsNeverPositive : Prop :=
  ∀ (index d : Nat) (rs : Int),
    let currentSum := (correctPositive index (decompose d).sum (startByte index d rs)).code.sum
    currentSum ≤ 0 ∧ (0 < (decompose d).sum → currentSum < 0) ∧
      ((decompose d).sum ≤ 0 → currentSum = (decompose d).sum)

/-- R116: the final code's sum is in −6 … 6 and has R116's sign in each of its three cases, so a byte with a negative
final sum is never followed by another. -/
def Obligations.FinalSumFollowsPreviousSign : Prop :=
  ∀ (s : State) (d : Byte), s.run = .busy .symbols → s.scheme = .eightB6T → s.symIdx < s.input.length / 8 →
    let currentSum := (correctPositive 0 (decompose d.toNat).sum (startByte 0 d.toNat 0)).code.sum
    ∃ t, exec (.byte d) s = .next t ∧ -6 ≤ t.prevCode.sum ∧ t.prevCode.sum ≤ 6 ∧
      (currentSum = 0 → t.prevCode.sum = 0) ∧
      (currentSum < 0 → s.prevCode.sum < 0 → t.prevCode.sum = -currentSum ∧ 0 < t.prevCode.sum) ∧
      (currentSum < 0 → 0 ≤ s.prevCode.sum → t.prevCode.sum = currentSum ∧ t.prevCode.sum < 0) ∧
      (s.prevCode.sum < 0 → 0 ≤ t.prevCode.sum)

/-- R60: trit i of a code is `int_2` of bits [2i+1:2i] of its packing, unpacking gives the code back, and the pattern
0b10 is no trit. -/
def Obligations.CodePackingHoldsEveryTrit : Prop :=
  (∀ (c : Code) (i : Nat), i < 6 →
    c.vals[i]? = some ((c.pack.extractLsb' (2 * i) 2).toInt) ∧ c.pack.extractLsb' (2 * i) 2 ≠ 2#2) ∧
  (∀ c : Code, Code.unpack c.pack = some c) ∧
  ∀ (w : BitVec 12) (c : Code), Code.unpack w = some c → c.pack = w

/-! ### Decoding and encoding -/

/-- Decoding the encoding of a well-formed instruction gives it back, with every operand at every value the encoding
admits. -/
def Obligations.DecodeInvertsEncode : Prop :=
  ∀ i : Instr, WellFormed i = true → decode (encode i) = .ok i

/-- The other direction: an item that decodes is the encoding of what it decodes to, and that is well formed, so no item
has two spellings and nothing ill formed is decoded. -/
def Obligations.EncodeInvertsDecode : Prop :=
  ∀ (x : Item) (i : Instr), decode x = .ok i → encode i = x ∧ WellFormed i = true

/-- R57: the admitted keys with their operands, and every other key refused; by the key's fields, an admitted key is a
REG write of register 0x00 or 0x03, a REG read of register 0x01, 0x02 or 0x04–0x0B, or a read of IN, OUT or TRACE with
REGNO = 0. -/
def Obligations.HostKeysAreExactlyTheListed : Prop :=
  (∀ v, decode (.access 0x80#8 [v]) = .ok (.wrCmd v)) ∧ (∀ v, decode (.access 0x83#8 [v]) = .ok (.wrInData v)) ∧
  decode (.access 0x01#8 []) = .ok .rdStatus ∧ decode (.access 0x02#8 []) = .ok .rdErrInfo ∧
  decode (.access 0x04#8 []) = .ok .rdInLen ∧ decode (.access 0x05#8 []) = .ok .rdOutLen ∧
  decode (.access 0x06#8 []) = .ok .rdTraceLen ∧ decode (.access 0x07#8 []) = .ok .rdSymIdx ∧
  decode (.access 0x08#8 []) = .ok .rdPrevLevel ∧ decode (.access 0x09#8 []) = .ok .rdRunningSum ∧
  decode (.access 0x0A#8 []) = .ok .rdPrevCode ∧ decode (.access 0x0B#8 []) = .ok .rdPrevSum ∧
  (∀ k, decode (.access 0x20#8 [k]) = .ok (.rdIn k)) ∧ (∀ k, decode (.access 0x40#8 [k]) = .ok (.rdOut k)) ∧
  (∀ k f : Word, f.toNat ≤ 13 → decode (.access 0x60#8 [k, f]) = .ok (.rdTr k f)) ∧
  (∀ (s : State) (h : Byte) (ops : List Word) (rest : List Event), s.busy = false →
    h ∉ [0x80#8, 0x83#8, 0x01#8, 0x02#8, 0x04#8, 0x05#8, 0x06#8, 0x07#8, 0x08#8, 0x09#8, 0x0A#8, 0x0B#8, 0x20#8,
      0x40#8, 0x60#8] →
    step { s with pending := .access h ops :: rest } = .refused (.keyNotAdmitted h)) ∧
  ∀ h : Byte, (∃ ops i, decode (.access h ops) = .ok i) ↔
    (keyDir h = true ∧ keySpace h = 0#2 ∧ (keyRegno h = 0#5 ∨ keyRegno h = 3#5)) ∨
    (keyDir h = false ∧ keySpace h = 0#2 ∧
      (keyRegno h = 1#5 ∨ keyRegno h = 2#5 ∨ (4#5 ≤ keyRegno h ∧ keyRegno h ≤ 11#5))) ∨
    (keyDir h = false ∧ keySpace h ≠ 0#2 ∧ keyRegno h = 0#5)

/-- R59, R58, R63: two characters are a pair, c0 the high bit, and eight are the byte value
`d = Σ bit(c_t) · 2^(7−t)`, for every choice of '0' (0x30) and '1' (0x31); a symbol with any other character in it is no
instruction. -/
def Obligations.SymbolsDecodeMostSignificantFirst : Prop :=
  (∀ b : Bool → Byte, b = (fun x => if x then 0x31#8 else 0x30#8) →
    (∀ x1 x0 : Bool, decode (.sym2 (b x1) (b x0)) = .ok (pairOf x1 x0)) ∧
    ∀ x0 x1 x2 x3 x4 x5 x6 x7 : Bool,
      decode (.sym8 (b x0) (b x1) (b x2) (b x3) (b x4) (b x5) (b x6) (b x7)) =
        .ok (.byte (BitVec.ofNat 8 (x0.toNat * 2 ^ 7 + x1.toNat * 2 ^ 6 + x2.toNat * 2 ^ 5 + x3.toNat * 2 ^ 4 +
          x4.toNat * 2 ^ 3 + x5.toNat * 2 ^ 2 + x6.toNat * 2 + x7.toNat)))) ∧
  (∀ c c' : Byte, c ≠ 0x30#8 → c ≠ 0x31#8 →
    decode (.sym2 c c') = .error .notBinary ∧ decode (.sym2 c' c) = .error .notBinary) ∧
  ∀ c0 c1 c2 c3 c4 c5 c6 c7 : Byte,
    (∃ c ∈ [c0, c1, c2, c3, c4, c5, c6, c7], c ≠ 0x30#8 ∧ c ≠ 0x31#8) →
    decode (.sym8 c0 c1 c2 c3 c4 c5 c6 c7) = .error .notBinary

/-- A few items written out from the spec's encodings decode to the instructions they stand for, one or more of each
format. -/
def Obligations.SampleItemsDecode : Prop :=
  decode (.cmd 0b00000000000000000000000000000101#32) = .ok .encode8b6t ∧
  decode (.access 0b10000011#8 [0x00000131#32]) = .ok (.wrInData 0x00000131#32) ∧
  decode (.access 0b01100000#8 [3#32, 11#32]) = .ok (.rdTr 3#32 11#32) ∧
  decode (.sym2 0b00110000#8 0b00110001#8) = .ok .pair01 ∧
  decode (.sym8 0x31#8 0x31#8 0x31#8 0x31#8 0x30#8 0x30#8 0x31#8 0x30#8) = .ok (.byte 242#8) ∧
  decode .step = .ok .validate

/-! ### The step -/

/-- A host item that decodes to `i` is run by `step` as `exec i`, in the state whose pending list has moved past it. -/
def Obligations.StepRunsTheDecodedHostItem : Prop :=
  ∀ (s : State) (rest : List Event) (i : Instr),
    (∀ c, decode (.cmd c) = .ok i → step { s with pending := .command c :: rest } = exec i { s with pending := rest }) ∧
    (∀ h ops, decode (.access h ops) = .ok i →
      step { s with pending := .access h ops :: rest } = exec i { s with pending := rest })

/-- R65, R66, R67: what each line of a host program becomes, PUSHS one access a character from left to right, and a
program its lines' in order. Every access issued is an admitted one, but for RDTR of a field above 13, which is no
instruction and is refused. WAIT reads STATUS, and goes round again on exactly the words that show BUSY. -/
def Obligations.HostLinesBecomeAdmittedAccesses : Prop :=
  (∀ c, (HostLine.wrCmd c).expand = [.access 0x80#8 [c]]) ∧
  (∀ v, (HostLine.wrInData v).expand = [.access 0x83#8 [v]]) ∧
  (∀ q ∈ [(ReadReg.status, 0x01#8), (.errInfo, 0x02#8), (.inLen, 0x04#8), (.outLen, 0x05#8), (.traceLen, 0x06#8),
    (.symIdx, 0x07#8), (.prevLevel, 0x08#8), (.runningSum, 0x09#8), (.prevCode, 0x0A#8), (.prevSum, 0x0B#8)],
    (HostLine.rd q.1).expand = [.access q.2 []]) ∧
  (∀ k, (HostLine.rdIn k).expand = [.access 0x20#8 [k]]) ∧ (∀ k, (HostLine.rdOut k).expand = [.access 0x40#8 [k]]) ∧
  (∀ k f, (HostLine.rdTr k f).expand = [.access 0x60#8 [k, f]]) ∧
  HostLine.nop.expand = [.access 0x80#8 [0x00000000#32]] ∧ HostLine.enc2b1q.expand = [.access 0x80#8 [0x00000001#32]] ∧
  HostLine.enc8b6t.expand = [.access 0x80#8 [0x00000005#32]] ∧ HostLine.clear.expand = [.access 0x80#8 [0x00000002#32]] ∧
  (HostLine.push false).expand = [.access 0x83#8 [0x30#32]] ∧ (HostLine.push true).expand = [.access 0x83#8 [0x31#32]] ∧
  (HostLine.pushs []).expand = [] ∧
  (∀ ch s, (HostLine.pushs (ch :: s)).expand = .access 0x83#8 [ch.setWidth 32] :: (HostLine.pushs s).expand) ∧
  HostLine.wait.expand = [.wait] ∧ HostOp.wait.event = .access 0x01#8 [] ∧
  (∀ h ops, (HostOp.access h ops).event = .access h ops ∧ ∀ w, (HostOp.access h ops).repeats w = false) ∧
  expandProgram [] = [] ∧ (∀ l p, expandProgram (l :: p) = l.expand ++ expandProgram p) ∧
  (∀ l : HostLine, (∀ k f, l = .rdTr k f → f.toNat ≤ 13) →
    ∀ op ∈ l.expand, ∃ h ops i, op.event = .access h ops ∧ decode (.access h ops) = .ok i ∧ WellFormed i = true) ∧
  (∀ k f : Word, 13 < f.toNat → decode (.access 0x60#8 [k, f]) = .error (.fieldOutOfRange f) ∧
    ∀ (s : State) (rest : List Event), ∃ r, step { s with pending := .access 0x60#8 [k, f] :: rest } = .refused r) ∧
  ∀ s : State, ∃ w, Returns .rdStatus s w ∧ (HostOp.wait.repeats (some w) = true ↔ s.busy = true)

/-- R66, R67, R84. An order of events that carries a program out is a run of the machine over exactly those events (in
the model's form of R48's order, log 1), and its host events are the program's accesses in line order, each once and
WAIT's one or more times. An access moves past its operation and no other access is allowed; encoder turns and reset
assertions leave the program alone. A round of WAIT ends it exactly when STATE ≠ BUSY, and in a state of the invariant
encoder turns bring that about. A run has ended when STATE ≠ BUSY and no host access is left, whatever else is to come,
and is observed there. -/
def Obligations.HostProgramsRunInLineOrderToTheirEnd : Prop :=
  (∀ (p left : List HostOp) (es : List Event) (s t : State), carryOut p es s = some (left, t) →
    Sys2Proof.core.run es.length { s with pending := es } = .next t ∧ t.pending = [] ∧
    (left = [] → ∃ more : List Nat, more.length = p.length ∧
      (∀ (i : Nat) h ops, p[i]? = some (.access h ops) → more[i]? = some 0) ∧
      es.filter (fun e => e ≠ .encoder ∧ e ≠ .reset) =
        (p.zip more).flatMap fun q => List.replicate (q.2 + 1) q.1.event)) ∧
  (∀ (h : Byte) (ops : List Word) (p : List HostOp) (es : List Event) (s t : State),
    step { s with pending := .access h ops :: es } = .next t →
      carryOut (.access h ops :: p) (.access h ops :: es) s = carryOut p es t) ∧
  (∀ (h : Byte) (ops : List Word) (es : List Event) (s : State), carryOut [] (.access h ops :: es) s = none ∧
    ∀ (op : HostOp) (p : List HostOp), op.event ≠ .access h ops → carryOut (op :: p) (.access h ops :: es) s = none) ∧
  (∀ e ∈ [Event.encoder, .reset], ∀ (p : List HostOp) (es : List Event) (s t : State),
    step { s with pending := e :: es } = .next t → carryOut p (e :: es) s = carryOut p es t) ∧
  (∀ (p : List HostOp) (es : List Event) (s : State), ∃ w, Returns .rdStatus s w ∧
    carryOut (.wait :: p) (.access 0x01#8 [] :: es) s =
      carryOut (if s.busy then .wait :: p else p) es { s with replies := s.replies ++ [w] }) ∧
  (∀ s : State, s.Inv → ∃ (n : Nat) (t : State),
    carryOut [.wait] (List.replicate n .encoder ++ [.access 0x01#8 []]) s = some ([], t) ∧ t.busy = false) ∧
  (∀ s : State, s.runEnded = true ↔ s.busy = false ∧ ∀ e ∈ s.pending, e = .encoder ∨ e = .reset) ∧
  (∀ (s : State) (k : Nat), s.runEnded = true → observeRun k s = some s.block) ∧
  ∀ (s t : State) (k : Nat), s.runEnded = false → step s = .next t → observeRun (k + 1) s = observeRun k t

/-- The encoder's turn runs VALIDATE in PHASE VALIDATE, and in PHASE SYMBOLS the symbol at
`IN[w·SYM_IDX .. w·SYM_IDX + w − 1]`, as its format decodes it (10_state.md R25, R33); with nothing pending the encoder
takes that turn by itself (the model's choice, log 1). -/
def Obligations.StepRunsTheSymbolAtSymIdx : Prop :=
  ∀ (s : State) (rest : List Event),
    (s.run = .busy .validate →
      step { s with pending := .encoder :: rest } = exec .validate { s with pending := rest } ∧
      step { s with pending := [] } = exec .validate { s with pending := [] }) ∧
    (∀ (c0 c1 : Byte) (tail : List Byte) (i : Instr), s.run = .busy .symbols → s.scheme = .twoB1Q →
      s.input.drop (2 * s.symIdx) = c0 :: c1 :: tail → decode (.sym2 c0 c1) = .ok i →
      step { s with pending := .encoder :: rest } = exec i { s with pending := rest } ∧
      step { s with pending := [] } = exec i { s with pending := [] }) ∧
    (∀ (c0 c1 c2 c3 c4 c5 c6 c7 : Byte) (tail : List Byte) (i : Instr), s.run = .busy .symbols →
      s.scheme = .eightB6T →
      s.input.drop (8 * s.symIdx) = c0 :: c1 :: c2 :: c3 :: c4 :: c5 :: c6 :: c7 :: tail →
      decode (.sym8 c0 c1 c2 c3 c4 c5 c6 c7) = .ok i →
      step { s with pending := .encoder :: rest } = exec i { s with pending := rest } ∧
      step { s with pending := [] } = exec i { s with pending := [] })

/-- R145: "When STATE ≠ BUSY the encoder agent simply has no step", and each encoder instruction is taken only in the
states of its rule (R92, R93, R104): VALIDATE in PHASE VALIDATE, a pair step in PHASE SYMBOLS under SCHEME 0 and a byte
step under SCHEME 1, while SYM_IDX is below IN_LEN / w. The names of the refusals are the model's (log 11). -/
def Obligations.EncoderHasNoStepUnlessBusy : Prop :=
  (∀ (s : State) (rest : List Event), s.busy = false →
    step { s with pending := .encoder :: rest } = .refused .encoderIdle ∧
    step { s with pending := [] } = .refused .encoderIdle ∧
    (∀ i ∈ [Instr.validate, .pair00, .pair01, .pair10, .pair11], exec i s = .refused .stepNotEnabled) ∧
    ∀ d, exec (.byte d) s = .refused .stepNotEnabled) ∧
  (∀ s : State, s.run ≠ .busy .validate → exec .validate s = .refused .stepNotEnabled) ∧
  (∀ s : State, s.run ≠ .busy .symbols ∨ s.scheme = .eightB6T ∨ s.input.length / 2 ≤ s.symIdx →
    ∀ i ∈ [Instr.pair00, .pair01, .pair10, .pair11], exec i s = .refused .stepNotEnabled) ∧
  ∀ s : State, s.run ≠ .busy .symbols ∨ s.scheme = .twoB1Q ∨ s.input.length / 8 ≤ s.symIdx →
    ∀ d, exec (.byte d) s = .refused .stepNotEnabled

/-! ### Whole-machine rules -/

/-- The invariant holds after reset, for every capacity and every order of events to come. -/
def Obligations.ResetSatisfiesInvariant : Prop :=
  ∀ (c : Config) (events : List Event), ({ State.resetWith c with pending := events } : State).Inv

/-- R36 and what it rests on: every step from a state of the invariant leads to a state of the invariant. -/
def Obligations.StepKeepsInvariant : Prop :=
  ∀ s t : State, s.Inv → step s = .next t → t.Inv

/-- R63, R131: in a state of the invariant no step faults: no symbol step meets a missing or non-binary character, and
while BUSY the encoder's turn always answers a next state. -/
def Obligations.EncoderTurnAnswersUnderInvariant : Prop :=
  ∀ s : State, s.Inv →
    (∀ f, step s ≠ .fault f) ∧
    (s.busy = true → ∀ rest, ∃ t, step { s with pending := .encoder :: rest } = .next t)

/-- No run of the machine meets a fault, for every capacity and every order of host accesses, encoder turns and reset
assertions. -/
def Obligations.ReachableRunsNeverFault : Prop :=
  ∀ s : State, Reachable s → RunsWithoutFault s

/-- R79, R80, R156: from any state that is not BUSY, ENCODE and then exactly 1 + m encoder steps give the result of
`Encode(IN, s)` and STATE = DONE, BUSY at every step before; on a failure exactly one step gives STATE = ERROR with the
failure's kind and info and no output. IN is kept. -/
def Obligations.FrameRunComputesEncode : Prop :=
  ∀ (sch : Scheme) (s : State), s.busy = false → s.pending = [] →
    ∃ t0, exec (encodeCommand sch) s = .next t0 ∧
      (∀ r, encodeFrame s.input sch = .ok r →
        (∃ t, Sys2Proof.core.run (1 + s.input.length / symbolWidth sch) t0 = .next t ∧ t.run = .done ∧
          t.output = r.output ∧ t.trace = r.trace ∧ t.symIdx = s.input.length / symbolWidth sch ∧
          t.input = s.input ∧ t.scheme = sch ∧ t.errCode = .none) ∧
        ∀ k, k < 1 + s.input.length / symbolWidth sch →
          ∃ u : State, Sys2Proof.core.run k t0 = .next u ∧ u.busy = true) ∧
      (∀ kind info, encodeFrame s.input sch = .error (kind, info) →
        ∃ t, Sys2Proof.core.run 1 t0 = .next t ∧ t.run = .error ∧ t.errCode = kind ∧
          (info < 2 ^ 32 → t.errInfo.toNat = info) ∧ t.output = [] ∧ t.trace = [] ∧ t.symIdx = 0 ∧
          t.input = s.input ∧ t.scheme = sch)

/-- R24, R103, R119, R129: the result of a frame of n characters: n/2 levels in −3, −1, 1, 3 and 2 + n/2 records under
2B1Q; (n/8)·6 trits in −1, 0, 1 and between 2 + 2(n/8) and 2 + 4(n/8) records under 8B6T; nothing for the empty
frame. -/
def Obligations.FrameResultsHaveTheirLengths : Prop :=
  ∀ (inp : List Byte) (r : FrameResult),
    (encodeFrame inp .twoB1Q = .ok r →
      r.output.length = inp.length / 2 ∧ (∀ v ∈ r.output, v = -3 ∨ v = -1 ∨ v = 1 ∨ v = 3) ∧
      (inp ≠ [] → r.trace.length = 2 + inp.length / 2) ∧ (inp = [] → r.trace = [])) ∧
    (encodeFrame inp .eightB6T = .ok r →
      r.output.length = inp.length / 8 * 6 ∧ (∀ v ∈ r.output, v = -1 ∨ v = 0 ∨ v = 1) ∧
      (inp ≠ [] → 2 + 2 * (inp.length / 8) ≤ r.trace.length ∧ r.trace.length ≤ 2 + 4 * (inp.length / 8)) ∧
      (inp = [] → r.trace = []))

/-- R81: STATUS reads interleaved with encoder steps in any order leave the block as the encoder steps alone would, that
is, as the turns the encoder takes when nothing is pending (log 1). -/
def Obligations.StatusPollsDoNotDisturbAFrame : Prop :=
  ∀ (s t : State) (events : List Event), (∀ e ∈ events, e = .encoder ∨ e = .access 0x01#8 []) →
    Sys2Proof.core.run events.length { s with pending := events } = .next t →
    ∃ u : State, Sys2Proof.core.run (events.count .encoder) { s with pending := [] } = .next u ∧ t.block = u.block

/-- R83: two ENCODEs of the same IN and scheme run alike, step by step, whatever ran before them. -/
def Obligations.FramesAreIndependent : Prop :=
  ∀ (sch : Scheme) (s1 s2 : State), s1.busy = false → s2.busy = false → s1.pending = [] → s2.pending = [] →
    s1.input = s2.input →
    ∃ t1 t2, exec (encodeCommand sch) s1 = .next t1 ∧ exec (encodeCommand sch) s2 = .next t2 ∧
      ∀ (k : Nat) (u1 : State), Sys2Proof.core.run k t1 = .next u1 →
        ∃ u2 : State, Sys2Proof.core.run k t2 = .next u2 ∧ u1.run = u2.run ∧ u1.output = u2.output ∧
          u1.trace = u2.trace ∧ u1.symIdx = u2.symIdx ∧ u1.errCode = u2.errCode ∧ u1.errInfo = u2.errInfo

/-- R40: within a frame OUT and TRACE are append-only: while BUSY only the reset input removes an element. Outside BUSY
every element stays until the next ENCODE, CLEAR or reset, and those empty both. -/
def Obligations.OutAndTraceAreAppendOnly : Prop :=
  ∀ s t : State, step s = .next t →
    (s.busy = true → (∀ rest, s.pending ≠ .reset :: rest) → s.output <+: t.output ∧ s.trace <+: t.trace) ∧
    (s.busy = false →
      (t.output = s.output ∧ t.trace = s.trace) ∨
      (t.output = [] ∧ t.trace = [] ∧
        ∃ rest, s.pending = .reset :: rest ∨ ∃ c : Word, (c = 1#32 ∨ c = 5#32 ∨ c = 2#32) ∧
          (s.pending = .command c :: rest ∨ s.pending = .access 0x80#8 [c] :: rest))) ∧
    ((∃ rest, s.pending = .reset :: rest ∨ ∃ c : Word, (c = 1#32 ∨ c = 5#32 ∨ c = 2#32) ∧
        (s.pending = .command c :: rest ∨ s.pending = .access 0x80#8 [c] :: rest)) →
      t.output = [] ∧ t.trace = [])

/-- R23, R51: IN changes only by WR IN_DATA, which appends its character, and by CLEAR and the reset input, which empty
it; never while BUSY but by the reset input. -/
def Obligations.InputChangesOnlyByHost : Prop :=
  ∀ s t : State, step s = .next t →
    t.input = s.input ∨
    (s.busy = false ∧ ∃ v rest, s.pending = .access 0x83#8 [v] :: rest ∧ t.input = s.input ++ [v.lowByte]) ∨
    (s.busy = false ∧ t.input = [] ∧
      ∃ rest, s.pending = .command 2#32 :: rest ∨ s.pending = .access 0x80#8 [2#32] :: rest) ∨
    (t.input = [] ∧ ∃ rest, s.pending = .reset :: rest)

/-- R82: every symbol step advances SYM_IDX by exactly 1, and the one that brings it to IN_LEN / w, and no other, sets
DONE. -/
def Obligations.SymbolStepsAdvanceByOne : Prop :=
  ∀ s t : State, s.run = .busy .symbols → (s.pending = [] ∨ ∃ rest, s.pending = .encoder :: rest) →
    step s = .next t →
    t.symIdx = s.symIdx + 1 ∧ (t.run = .done ↔ t.symIdx = s.input.length / symbolWidth s.scheme) ∧
      (t.run = .done ∨ t.run = .busy .symbols)

/-- R137 with R146 and R147: STATE = ERROR is left only by a legal ENCODE, by CLEAR or by the reset input, and each clears
ERR_CODE and ERR_INFO; what stays in ERROR keeps both, unless it is another illegal command, which replaces them
(R138, R133). -/
def Obligations.ErrorIsLeftOnlyByEncodeClearOrReset : Prop :=
  ∀ s t : State, s.run = .error → step s = .next t →
    (t.run = .error ∧ t.errCode = s.errCode ∧ t.errInfo = s.errInfo) ∨
    (t.run = .error ∧ t.errCode = .illegalCommand ∧ ∃ c rest, decodeCommand c = none ∧ t.errInfo = c ∧
      (s.pending = .command c :: rest ∨ s.pending = .access 0x80#8 [c] :: rest)) ∨
    (t.run ≠ .error ∧ t.errCode = .none ∧ t.errInfo = 0#32 ∧
      ∃ rest, s.pending = .reset :: rest ∨ ∃ c : Word, (c = 1#32 ∨ c = 5#32 ∨ c = 2#32) ∧
        (s.pending = .command c :: rest ∨ s.pending = .access 0x80#8 [c] :: rest))

/-- A frame, once started, ends only by the encoder's own turn, in DONE or, from PHASE VALIDATE, in ERROR, or by the
reset input (R79, R147; 92_eei_decisions.md D36: no cancellation). -/
def Obligations.BusyEndsOnlyByEncoderOrReset : Prop :=
  ∀ s t : State, s.busy = true → step s = .next t →
    t.busy = true ∨
    ((t.run = .done ∨ (t.run = .error ∧ s.run = .busy .validate)) ∧
      (s.pending = [] ∨ ∃ rest, s.pending = .encoder :: rest)) ∨
    (t.run = .idle ∧ ∃ rest, s.pending = .reset :: rest)

/-- R125: a data snapshot is all of OUT when the record is made, and its length is INDEX (2B1Q) or 6·INDEX (8B6T). -/
def Obligations.SnapshotsAreAllOutputSoFar : Prop :=
  ∀ s t : State, s.Inv → step s = .next t →
    ∀ r ∈ t.trace.drop s.trace.length, r.hasData = true →
      r.snapLen = t.output.length ∧ r.snapLen = valuesPerSymbol t.scheme * r.index ∧
      (r.kind = .pair ∨ r.kind = .byteFinal)

/-- R117: under 8B6T |RUNNING_SUM| is at most 6 for every byte processed. -/
def Obligations.RunningSumIsBounded : Prop :=
  ∀ s : State, s.Inv → s.scheme = .eightB6T →
    -(6 * (s.symIdx : Int)) ≤ s.runningSum ∧ s.runningSum ≤ 6 * (s.symIdx : Int)

/-- R7: with a finite MAX_FRAME_CHARS the 32-bit views of RUNNING_SUM, IN_LEN, OUT_LEN and TRACE_LEN never wrap: in
every state of the invariant the reads return the values themselves. -/
def Obligations.ViewsAreExactForFiniteCapacity : Prop :=
  ∀ (s : State) (m : Fin 2863311529), s.Inv → s.cfg.maxFrameChars = some m → s.busy = false →
    (∃ w, Returns .rdRunningSum s w ∧ w.toInt = s.runningSum) ∧
    (∃ w, Returns .rdInLen s w ∧ w.toNat = s.input.length) ∧
    (∃ w, Returns .rdOutLen s w ∧ w.toNat = s.output.length) ∧
    (∃ w, Returns .rdTraceLen s w ∧ w.toNat = s.trace.length)

/-- The capacity is an argument of the machine: no step changes it. -/
def Obligations.CapacityNeverChanges : Prop :=
  ∀ s t : State, step s = .next t → t.cfg = s.cfg
end

