-- ==== Sys2Proof/Laws/State.lean ====
section
/-! SUPPORT. One lemma per field per state update, each true by rfl or by the one equation of a repeated update, so that no later proof unfolds a record update. -/

namespace Sys2Proof.Machine

/-! ### appendOut -/

@[simp] theorem appendOut_cfg (v : Int) (s : State) : (appendOut v s).cfg = s.cfg := rfl
@[simp] theorem appendOut_run (v : Int) (s : State) : (appendOut v s).run = s.run := rfl
@[simp] theorem appendOut_scheme (v : Int) (s : State) : (appendOut v s).scheme = s.scheme := rfl
@[simp] theorem appendOut_errCode (v : Int) (s : State) : (appendOut v s).errCode = s.errCode := rfl
@[simp] theorem appendOut_errInfo (v : Int) (s : State) : (appendOut v s).errInfo = s.errInfo := rfl
@[simp] theorem appendOut_input (v : Int) (s : State) : (appendOut v s).input = s.input := rfl
@[simp] theorem appendOut_output (v : Int) (s : State) : (appendOut v s).output = s.output ++ [v] := rfl
@[simp] theorem appendOut_trace (v : Int) (s : State) : (appendOut v s).trace = s.trace := rfl
@[simp] theorem appendOut_symIdx (v : Int) (s : State) : (appendOut v s).symIdx = s.symIdx := rfl
@[simp] theorem appendOut_prevLevel (v : Int) (s : State) : (appendOut v s).prevLevel = s.prevLevel := rfl
@[simp] theorem appendOut_runningSum (v : Int) (s : State) : (appendOut v s).runningSum = s.runningSum := rfl
@[simp] theorem appendOut_prevCode (v : Int) (s : State) : (appendOut v s).prevCode = s.prevCode := rfl
@[simp] theorem appendOut_pending (v : Int) (s : State) : (appendOut v s).pending = s.pending := rfl
@[simp] theorem appendOut_replies (v : Int) (s : State) : (appendOut v s).replies = s.replies := rfl

/-! ### appendInput -/

@[simp] theorem appendInput_cfg (c : Byte) (s : State) : (appendInput c s).cfg = s.cfg := rfl
@[simp] theorem appendInput_run (c : Byte) (s : State) : (appendInput c s).run = s.run := rfl
@[simp] theorem appendInput_scheme (c : Byte) (s : State) : (appendInput c s).scheme = s.scheme := rfl
@[simp] theorem appendInput_errCode (c : Byte) (s : State) : (appendInput c s).errCode = s.errCode := rfl
@[simp] theorem appendInput_errInfo (c : Byte) (s : State) : (appendInput c s).errInfo = s.errInfo := rfl
@[simp] theorem appendInput_input (c : Byte) (s : State) : (appendInput c s).input = s.input ++ [c] := rfl
@[simp] theorem appendInput_output (c : Byte) (s : State) : (appendInput c s).output = s.output := rfl
@[simp] theorem appendInput_trace (c : Byte) (s : State) : (appendInput c s).trace = s.trace := rfl
@[simp] theorem appendInput_symIdx (c : Byte) (s : State) : (appendInput c s).symIdx = s.symIdx := rfl
@[simp] theorem appendInput_prevLevel (c : Byte) (s : State) : (appendInput c s).prevLevel = s.prevLevel := rfl
@[simp] theorem appendInput_runningSum (c : Byte) (s : State) : (appendInput c s).runningSum = s.runningSum := rfl
@[simp] theorem appendInput_prevCode (c : Byte) (s : State) : (appendInput c s).prevCode = s.prevCode := rfl
@[simp] theorem appendInput_pending (c : Byte) (s : State) : (appendInput c s).pending = s.pending := rfl
@[simp] theorem appendInput_replies (c : Byte) (s : State) : (appendInput c s).replies = s.replies := rfl

/-! ### traceAppend -/

@[simp] theorem traceAppend_cfg (r : TraceRecord) (s : State) : (traceAppend r s).cfg = s.cfg := rfl
@[simp] theorem traceAppend_run (r : TraceRecord) (s : State) : (traceAppend r s).run = s.run := rfl
@[simp] theorem traceAppend_scheme (r : TraceRecord) (s : State) : (traceAppend r s).scheme = s.scheme := rfl
@[simp] theorem traceAppend_errCode (r : TraceRecord) (s : State) : (traceAppend r s).errCode = s.errCode := rfl
@[simp] theorem traceAppend_errInfo (r : TraceRecord) (s : State) : (traceAppend r s).errInfo = s.errInfo := rfl
@[simp] theorem traceAppend_input (r : TraceRecord) (s : State) : (traceAppend r s).input = s.input := rfl
@[simp] theorem traceAppend_output (r : TraceRecord) (s : State) : (traceAppend r s).output = s.output := rfl
@[simp] theorem traceAppend_trace (r : TraceRecord) (s : State) : (traceAppend r s).trace = s.trace ++ [r.stamp s.scheme] := rfl
@[simp] theorem traceAppend_symIdx (r : TraceRecord) (s : State) : (traceAppend r s).symIdx = s.symIdx := rfl
@[simp] theorem traceAppend_prevLevel (r : TraceRecord) (s : State) : (traceAppend r s).prevLevel = s.prevLevel := rfl
@[simp] theorem traceAppend_runningSum (r : TraceRecord) (s : State) : (traceAppend r s).runningSum = s.runningSum := rfl
@[simp] theorem traceAppend_prevCode (r : TraceRecord) (s : State) : (traceAppend r s).prevCode = s.prevCode := rfl
@[simp] theorem traceAppend_pending (r : TraceRecord) (s : State) : (traceAppend r s).pending = s.pending := rfl
@[simp] theorem traceAppend_replies (r : TraceRecord) (s : State) : (traceAppend r s).replies = s.replies := rfl

/-! ### giveReply -/

@[simp] theorem giveReply_cfg (w : Word) (s : State) : (giveReply w s).cfg = s.cfg := rfl
@[simp] theorem giveReply_run (w : Word) (s : State) : (giveReply w s).run = s.run := rfl
@[simp] theorem giveReply_scheme (w : Word) (s : State) : (giveReply w s).scheme = s.scheme := rfl
@[simp] theorem giveReply_errCode (w : Word) (s : State) : (giveReply w s).errCode = s.errCode := rfl
@[simp] theorem giveReply_errInfo (w : Word) (s : State) : (giveReply w s).errInfo = s.errInfo := rfl
@[simp] theorem giveReply_input (w : Word) (s : State) : (giveReply w s).input = s.input := rfl
@[simp] theorem giveReply_output (w : Word) (s : State) : (giveReply w s).output = s.output := rfl
@[simp] theorem giveReply_trace (w : Word) (s : State) : (giveReply w s).trace = s.trace := rfl
@[simp] theorem giveReply_symIdx (w : Word) (s : State) : (giveReply w s).symIdx = s.symIdx := rfl
@[simp] theorem giveReply_prevLevel (w : Word) (s : State) : (giveReply w s).prevLevel = s.prevLevel := rfl
@[simp] theorem giveReply_runningSum (w : Word) (s : State) : (giveReply w s).runningSum = s.runningSum := rfl
@[simp] theorem giveReply_prevCode (w : Word) (s : State) : (giveReply w s).prevCode = s.prevCode := rfl
@[simp] theorem giveReply_pending (w : Word) (s : State) : (giveReply w s).pending = s.pending := rfl
@[simp] theorem giveReply_replies (w : Word) (s : State) : (giveReply w s).replies = s.replies ++ [w] := rfl

/-! ### setPrevLevel -/

@[simp] theorem setPrevLevel_cfg (l : Int) (s : State) : (setPrevLevel l s).cfg = s.cfg := rfl
@[simp] theorem setPrevLevel_run (l : Int) (s : State) : (setPrevLevel l s).run = s.run := rfl
@[simp] theorem setPrevLevel_scheme (l : Int) (s : State) : (setPrevLevel l s).scheme = s.scheme := rfl
@[simp] theorem setPrevLevel_errCode (l : Int) (s : State) : (setPrevLevel l s).errCode = s.errCode := rfl
@[simp] theorem setPrevLevel_errInfo (l : Int) (s : State) : (setPrevLevel l s).errInfo = s.errInfo := rfl
@[simp] theorem setPrevLevel_input (l : Int) (s : State) : (setPrevLevel l s).input = s.input := rfl
@[simp] theorem setPrevLevel_output (l : Int) (s : State) : (setPrevLevel l s).output = s.output := rfl
@[simp] theorem setPrevLevel_trace (l : Int) (s : State) : (setPrevLevel l s).trace = s.trace := rfl
@[simp] theorem setPrevLevel_symIdx (l : Int) (s : State) : (setPrevLevel l s).symIdx = s.symIdx := rfl
@[simp] theorem setPrevLevel_prevLevel (l : Int) (s : State) : (setPrevLevel l s).prevLevel = l := rfl
@[simp] theorem setPrevLevel_runningSum (l : Int) (s : State) : (setPrevLevel l s).runningSum = s.runningSum := rfl
@[simp] theorem setPrevLevel_prevCode (l : Int) (s : State) : (setPrevLevel l s).prevCode = s.prevCode := rfl
@[simp] theorem setPrevLevel_pending (l : Int) (s : State) : (setPrevLevel l s).pending = s.pending := rfl
@[simp] theorem setPrevLevel_replies (l : Int) (s : State) : (setPrevLevel l s).replies = s.replies := rfl

/-! ### raiseValidationFailure -/

@[simp] theorem raiseValidationFailure_cfg (k : ErrCode) (n : Nat) (s : State) : (raiseValidationFailure k n s).cfg = s.cfg := rfl
@[simp] theorem raiseValidationFailure_run (k : ErrCode) (n : Nat) (s : State) : (raiseValidationFailure k n s).run = .error := rfl
@[simp] theorem raiseValidationFailure_scheme (k : ErrCode) (n : Nat) (s : State) : (raiseValidationFailure k n s).scheme = s.scheme := rfl
@[simp] theorem raiseValidationFailure_errCode (k : ErrCode) (n : Nat) (s : State) : (raiseValidationFailure k n s).errCode = k := rfl
@[simp] theorem raiseValidationFailure_errInfo (k : ErrCode) (n : Nat) (s : State) : (raiseValidationFailure k n s).errInfo = zext32 .errInfo n := rfl
@[simp] theorem raiseValidationFailure_input (k : ErrCode) (n : Nat) (s : State) : (raiseValidationFailure k n s).input = s.input := rfl
@[simp] theorem raiseValidationFailure_output (k : ErrCode) (n : Nat) (s : State) : (raiseValidationFailure k n s).output = s.output := rfl
@[simp] theorem raiseValidationFailure_trace (k : ErrCode) (n : Nat) (s : State) : (raiseValidationFailure k n s).trace = s.trace := rfl
@[simp] theorem raiseValidationFailure_symIdx (k : ErrCode) (n : Nat) (s : State) : (raiseValidationFailure k n s).symIdx = s.symIdx := rfl
@[simp] theorem raiseValidationFailure_prevLevel (k : ErrCode) (n : Nat) (s : State) : (raiseValidationFailure k n s).prevLevel = s.prevLevel := rfl
@[simp] theorem raiseValidationFailure_runningSum (k : ErrCode) (n : Nat) (s : State) : (raiseValidationFailure k n s).runningSum = s.runningSum := rfl
@[simp] theorem raiseValidationFailure_prevCode (k : ErrCode) (n : Nat) (s : State) : (raiseValidationFailure k n s).prevCode = s.prevCode := rfl
@[simp] theorem raiseValidationFailure_pending (k : ErrCode) (n : Nat) (s : State) : (raiseValidationFailure k n s).pending = s.pending := rfl
@[simp] theorem raiseValidationFailure_replies (k : ErrCode) (n : Nat) (s : State) : (raiseValidationFailure k n s).replies = s.replies := rfl

/-! ### raiseIllegalCommand -/

@[simp] theorem raiseIllegalCommand_cfg (c : Word) (s : State) : (raiseIllegalCommand c s).cfg = s.cfg := rfl
@[simp] theorem raiseIllegalCommand_run (c : Word) (s : State) : (raiseIllegalCommand c s).run = .error := rfl
@[simp] theorem raiseIllegalCommand_scheme (c : Word) (s : State) : (raiseIllegalCommand c s).scheme = s.scheme := rfl
@[simp] theorem raiseIllegalCommand_errCode (c : Word) (s : State) : (raiseIllegalCommand c s).errCode = .illegalCommand := rfl
@[simp] theorem raiseIllegalCommand_errInfo (c : Word) (s : State) : (raiseIllegalCommand c s).errInfo = c := rfl
@[simp] theorem raiseIllegalCommand_input (c : Word) (s : State) : (raiseIllegalCommand c s).input = s.input := rfl
@[simp] theorem raiseIllegalCommand_output (c : Word) (s : State) : (raiseIllegalCommand c s).output = s.output := rfl
@[simp] theorem raiseIllegalCommand_trace (c : Word) (s : State) : (raiseIllegalCommand c s).trace = s.trace := rfl
@[simp] theorem raiseIllegalCommand_symIdx (c : Word) (s : State) : (raiseIllegalCommand c s).symIdx = s.symIdx := rfl
@[simp] theorem raiseIllegalCommand_prevLevel (c : Word) (s : State) : (raiseIllegalCommand c s).prevLevel = s.prevLevel := rfl
@[simp] theorem raiseIllegalCommand_runningSum (c : Word) (s : State) : (raiseIllegalCommand c s).runningSum = s.runningSum := rfl
@[simp] theorem raiseIllegalCommand_prevCode (c : Word) (s : State) : (raiseIllegalCommand c s).prevCode = s.prevCode := rfl
@[simp] theorem raiseIllegalCommand_pending (c : Word) (s : State) : (raiseIllegalCommand c s).pending = s.pending := rfl
@[simp] theorem raiseIllegalCommand_replies (c : Word) (s : State) : (raiseIllegalCommand c s).replies = s.replies := rfl

/-! ### startFrame -/

@[simp] theorem startFrame_cfg (sch : Scheme) (s : State) : (startFrame sch s).cfg = s.cfg := rfl
@[simp] theorem startFrame_run (sch : Scheme) (s : State) : (startFrame sch s).run = .busy .validate := rfl
@[simp] theorem startFrame_scheme (sch : Scheme) (s : State) : (startFrame sch s).scheme = sch := rfl
@[simp] theorem startFrame_errCode (sch : Scheme) (s : State) : (startFrame sch s).errCode = .none := rfl
@[simp] theorem startFrame_errInfo (sch : Scheme) (s : State) : (startFrame sch s).errInfo = 0#32 := rfl
@[simp] theorem startFrame_input (sch : Scheme) (s : State) : (startFrame sch s).input = s.input := rfl
@[simp] theorem startFrame_output (sch : Scheme) (s : State) : (startFrame sch s).output = [] := rfl
@[simp] theorem startFrame_trace (sch : Scheme) (s : State) : (startFrame sch s).trace = [] := rfl
@[simp] theorem startFrame_symIdx (sch : Scheme) (s : State) : (startFrame sch s).symIdx = 0 := rfl
@[simp] theorem startFrame_prevLevel (sch : Scheme) (s : State) : (startFrame sch s).prevLevel = 0 := rfl
@[simp] theorem startFrame_runningSum (sch : Scheme) (s : State) : (startFrame sch s).runningSum = 0 := rfl
@[simp] theorem startFrame_prevCode (sch : Scheme) (s : State) : (startFrame sch s).prevCode = Code.zero := rfl
@[simp] theorem startFrame_pending (sch : Scheme) (s : State) : (startFrame sch s).pending = s.pending := rfl
@[simp] theorem startFrame_replies (sch : Scheme) (s : State) : (startFrame sch s).replies = s.replies := rfl

/-! ### resetBlock -/

@[simp] theorem resetBlock_cfg (s : State) : (resetBlock s).cfg = s.cfg := rfl
@[simp] theorem resetBlock_run (s : State) : (resetBlock s).run = .idle := rfl
@[simp] theorem resetBlock_scheme (s : State) : (resetBlock s).scheme = .twoB1Q := rfl
@[simp] theorem resetBlock_errCode (s : State) : (resetBlock s).errCode = .none := rfl
@[simp] theorem resetBlock_errInfo (s : State) : (resetBlock s).errInfo = 0#32 := rfl
@[simp] theorem resetBlock_input (s : State) : (resetBlock s).input = [] := rfl
@[simp] theorem resetBlock_output (s : State) : (resetBlock s).output = [] := rfl
@[simp] theorem resetBlock_trace (s : State) : (resetBlock s).trace = [] := rfl
@[simp] theorem resetBlock_symIdx (s : State) : (resetBlock s).symIdx = 0 := rfl
@[simp] theorem resetBlock_prevLevel (s : State) : (resetBlock s).prevLevel = 0 := rfl
@[simp] theorem resetBlock_runningSum (s : State) : (resetBlock s).runningSum = 0 := rfl
@[simp] theorem resetBlock_prevCode (s : State) : (resetBlock s).prevCode = Code.zero := rfl
@[simp] theorem resetBlock_pending (s : State) : (resetBlock s).pending = s.pending := rfl
@[simp] theorem resetBlock_replies (s : State) : (resetBlock s).replies = s.replies := rfl

/-! ### finishSymbol -/

@[simp] theorem finishSymbol_cfg (s : State) : (finishSymbol s).cfg = s.cfg := rfl
@[simp] theorem finishSymbol_run (s : State) : (finishSymbol s).run = if s.symIdx + 1 = symbolCount s then .done else s.run := rfl
@[simp] theorem finishSymbol_scheme (s : State) : (finishSymbol s).scheme = s.scheme := rfl
@[simp] theorem finishSymbol_errCode (s : State) : (finishSymbol s).errCode = s.errCode := rfl
@[simp] theorem finishSymbol_errInfo (s : State) : (finishSymbol s).errInfo = s.errInfo := rfl
@[simp] theorem finishSymbol_input (s : State) : (finishSymbol s).input = s.input := rfl
@[simp] theorem finishSymbol_output (s : State) : (finishSymbol s).output = s.output := rfl
@[simp] theorem finishSymbol_trace (s : State) : (finishSymbol s).trace = s.trace := rfl
@[simp] theorem finishSymbol_symIdx (s : State) : (finishSymbol s).symIdx = s.symIdx + 1 := rfl
@[simp] theorem finishSymbol_prevLevel (s : State) : (finishSymbol s).prevLevel = s.prevLevel := rfl
@[simp] theorem finishSymbol_runningSum (s : State) : (finishSymbol s).runningSum = s.runningSum := rfl
@[simp] theorem finishSymbol_prevCode (s : State) : (finishSymbol s).prevCode = s.prevCode := rfl
@[simp] theorem finishSymbol_pending (s : State) : (finishSymbol s).pending = s.pending := rfl
@[simp] theorem finishSymbol_replies (s : State) : (finishSymbol s).replies = s.replies := rfl

/-! ### appendOutAll -/

/-- What it leaves, whole. -/
theorem appendOutAll_eq (vs : List Int) (s : State) : appendOutAll vs s = { s with output := s.output ++ vs } := by
  induction vs generalizing s with
  | nil => simp [appendOutAll]
  | cons x xs ih => simp [appendOutAll, ih, appendOut]

@[simp] theorem appendOutAll_cfg (vs : List Int) (s : State) : (appendOutAll vs s).cfg = s.cfg := by
  rw [appendOutAll_eq]
@[simp] theorem appendOutAll_run (vs : List Int) (s : State) : (appendOutAll vs s).run = s.run := by
  rw [appendOutAll_eq]
@[simp] theorem appendOutAll_scheme (vs : List Int) (s : State) : (appendOutAll vs s).scheme = s.scheme := by
  rw [appendOutAll_eq]
@[simp] theorem appendOutAll_errCode (vs : List Int) (s : State) : (appendOutAll vs s).errCode = s.errCode := by
  rw [appendOutAll_eq]
@[simp] theorem appendOutAll_errInfo (vs : List Int) (s : State) : (appendOutAll vs s).errInfo = s.errInfo := by
  rw [appendOutAll_eq]
@[simp] theorem appendOutAll_input (vs : List Int) (s : State) : (appendOutAll vs s).input = s.input := by
  rw [appendOutAll_eq]
@[simp] theorem appendOutAll_output (vs : List Int) (s : State) : (appendOutAll vs s).output = s.output ++ vs := by
  rw [appendOutAll_eq]
@[simp] theorem appendOutAll_trace (vs : List Int) (s : State) : (appendOutAll vs s).trace = s.trace := by
  rw [appendOutAll_eq]
@[simp] theorem appendOutAll_symIdx (vs : List Int) (s : State) : (appendOutAll vs s).symIdx = s.symIdx := by
  rw [appendOutAll_eq]
@[simp] theorem appendOutAll_prevLevel (vs : List Int) (s : State) : (appendOutAll vs s).prevLevel = s.prevLevel := by
  rw [appendOutAll_eq]
@[simp] theorem appendOutAll_runningSum (vs : List Int) (s : State) : (appendOutAll vs s).runningSum = s.runningSum := by
  rw [appendOutAll_eq]
@[simp] theorem appendOutAll_prevCode (vs : List Int) (s : State) : (appendOutAll vs s).prevCode = s.prevCode := by
  rw [appendOutAll_eq]
@[simp] theorem appendOutAll_pending (vs : List Int) (s : State) : (appendOutAll vs s).pending = s.pending := by
  rw [appendOutAll_eq]
@[simp] theorem appendOutAll_replies (vs : List Int) (s : State) : (appendOutAll vs s).replies = s.replies := by
  rw [appendOutAll_eq]

/-! ### traceAppendAll -/

/-- What it leaves, whole. -/
theorem traceAppendAll_eq (rs : List TraceRecord) (s : State) :
    traceAppendAll rs s = { s with trace := s.trace ++ rs.map (TraceRecord.stamp s.scheme) } := by
  induction rs generalizing s with
  | nil => simp [traceAppendAll]
  | cons x xs ih => simp [traceAppendAll, ih, traceAppend]

@[simp] theorem traceAppendAll_cfg (rs : List TraceRecord) (s : State) : (traceAppendAll rs s).cfg = s.cfg := by
  rw [traceAppendAll_eq]
@[simp] theorem traceAppendAll_run (rs : List TraceRecord) (s : State) : (traceAppendAll rs s).run = s.run := by
  rw [traceAppendAll_eq]
@[simp] theorem traceAppendAll_scheme (rs : List TraceRecord) (s : State) : (traceAppendAll rs s).scheme = s.scheme := by
  rw [traceAppendAll_eq]
@[simp] theorem traceAppendAll_errCode (rs : List TraceRecord) (s : State) : (traceAppendAll rs s).errCode = s.errCode := by
  rw [traceAppendAll_eq]
@[simp] theorem traceAppendAll_errInfo (rs : List TraceRecord) (s : State) : (traceAppendAll rs s).errInfo = s.errInfo := by
  rw [traceAppendAll_eq]
@[simp] theorem traceAppendAll_input (rs : List TraceRecord) (s : State) : (traceAppendAll rs s).input = s.input := by
  rw [traceAppendAll_eq]
@[simp] theorem traceAppendAll_output (rs : List TraceRecord) (s : State) : (traceAppendAll rs s).output = s.output := by
  rw [traceAppendAll_eq]
@[simp] theorem traceAppendAll_trace (rs : List TraceRecord) (s : State) : (traceAppendAll rs s).trace = s.trace ++ rs.map (TraceRecord.stamp s.scheme) := by
  rw [traceAppendAll_eq]
@[simp] theorem traceAppendAll_symIdx (rs : List TraceRecord) (s : State) : (traceAppendAll rs s).symIdx = s.symIdx := by
  rw [traceAppendAll_eq]
@[simp] theorem traceAppendAll_prevLevel (rs : List TraceRecord) (s : State) : (traceAppendAll rs s).prevLevel = s.prevLevel := by
  rw [traceAppendAll_eq]
@[simp] theorem traceAppendAll_runningSum (rs : List TraceRecord) (s : State) : (traceAppendAll rs s).runningSum = s.runningSum := by
  rw [traceAppendAll_eq]
@[simp] theorem traceAppendAll_prevCode (rs : List TraceRecord) (s : State) : (traceAppendAll rs s).prevCode = s.prevCode := by
  rw [traceAppendAll_eq]
@[simp] theorem traceAppendAll_pending (rs : List TraceRecord) (s : State) : (traceAppendAll rs s).pending = s.pending := by
  rw [traceAppendAll_eq]
@[simp] theorem traceAppendAll_replies (rs : List TraceRecord) (s : State) : (traceAppendAll rs s).replies = s.replies := by
  rw [traceAppendAll_eq]

/-! ### The state after reset -/

@[simp] theorem resetWith_cfg (c : Config) : (State.resetWith c).cfg = c := rfl
@[simp] theorem resetWith_run (c : Config) : (State.resetWith c).run = .idle := rfl
@[simp] theorem resetWith_scheme (c : Config) : (State.resetWith c).scheme = .twoB1Q := rfl
@[simp] theorem resetWith_errCode (c : Config) : (State.resetWith c).errCode = .none := rfl
@[simp] theorem resetWith_errInfo (c : Config) : (State.resetWith c).errInfo = 0#32 := rfl
@[simp] theorem resetWith_input (c : Config) : (State.resetWith c).input = [] := rfl
@[simp] theorem resetWith_output (c : Config) : (State.resetWith c).output = [] := rfl
@[simp] theorem resetWith_trace (c : Config) : (State.resetWith c).trace = [] := rfl
@[simp] theorem resetWith_symIdx (c : Config) : (State.resetWith c).symIdx = 0 := rfl
@[simp] theorem resetWith_prevLevel (c : Config) : (State.resetWith c).prevLevel = 0 := rfl
@[simp] theorem resetWith_runningSum (c : Config) : (State.resetWith c).runningSum = 0 := rfl
@[simp] theorem resetWith_prevCode (c : Config) : (State.resetWith c).prevCode = Code.zero := rfl
@[simp] theorem resetWith_pending (c : Config) : (State.resetWith c).pending = [] := rfl
@[simp] theorem resetWith_replies (c : Config) : (State.resetWith c).replies = [] := rfl

/-! ### Predicates of the state that an update leaves -/

@[simp] theorem appendOut_busy (v : Int) (s : State) : (appendOut v s).busy = s.busy := rfl
@[simp] theorem appendOut_symbolCount (v : Int) (s : State) : symbolCount (appendOut v s) = symbolCount s := rfl
@[simp] theorem appendInput_busy (c : Byte) (s : State) : (appendInput c s).busy = s.busy := rfl
@[simp] theorem traceAppend_busy (r : TraceRecord) (s : State) : (traceAppend r s).busy = s.busy := rfl
@[simp] theorem traceAppend_symbolCount (r : TraceRecord) (s : State) : symbolCount (traceAppend r s) = symbolCount s := rfl
@[simp] theorem giveReply_busy (w : Word) (s : State) : (giveReply w s).busy = s.busy := rfl
@[simp] theorem giveReply_symbolCount (w : Word) (s : State) : symbolCount (giveReply w s) = symbolCount s := rfl
@[simp] theorem setPrevLevel_busy (l : Int) (s : State) : (setPrevLevel l s).busy = s.busy := rfl
@[simp] theorem setPrevLevel_symbolCount (l : Int) (s : State) : symbolCount (setPrevLevel l s) = symbolCount s := rfl
@[simp] theorem raiseValidationFailure_symbolCount (k : ErrCode) (n : Nat) (s : State) : symbolCount (raiseValidationFailure k n s) = symbolCount s := rfl
@[simp] theorem raiseIllegalCommand_symbolCount (c : Word) (s : State) : symbolCount (raiseIllegalCommand c s) = symbolCount s := rfl
@[simp] theorem finishSymbol_symbolCount (s : State) : symbolCount (finishSymbol s) = symbolCount s := rfl

theorem busy_eq_true_iff (s : State) : s.busy = true ↔ ∃ p, s.run = .busy p := by
  cases h : s.run <;> simp [State.busy, h]

theorem busy_eq_false_iff (s : State) : s.busy = false ↔ ∀ p, s.run ≠ .busy p := by
  cases h : s.run <;> simp [State.busy, h]

end Sys2Proof.Machine
end

