-- ==== Sys2Proof/Laws/Ops.lean ====
section
/-! SUPPORT. One lemma per shared operation, saying once what it can do; `exec_effect` and `step_effect` say it of an
instruction and of a step. Later proofs cite these instead of unfolding the operations. -/

namespace Sys2Proof.Machine

/-! ### Guards and answers -/

theorem unlessBusy_next {s t : State} {k : State → Out} :
    unlessBusy s k = .next t ↔ s.busy = false ∧ k s = .next t := by
  cases h : s.busy <;> simp [unlessBusy, h]

theorem unlessBusy_of_busy {s : State} (k : State → Out) (h : s.busy = true) :
    unlessBusy s k = .refused .accessWhileBusy := by simp [unlessBusy, h]

theorem unlessBusy_of_not_busy {s : State} (k : State → Out) (h : s.busy = false) : unlessBusy s k = k s := by
  simp [unlessBusy, h]

theorem answer_next {s t : State} {r : Except Refusal Word} :
    answer r s = .next t ↔ ∃ w, r = .ok w ∧ t = giveReply w s := by
  cases r <;> simp [answer, eq_comm]

theorem answer_not_fault {s : State} {r : Except Refusal Word} {f : Fault} : answer r s ≠ .fault f := by
  cases r <;> simp [answer]

theorem readRegister_of_busy {s : State} (w : Word) (h : s.busy = true) :
    readRegister w s = .error .accessWhileBusy := by simp [readRegister, h]

theorem readRegister_of_not_busy {s : State} (w : Word) (h : s.busy = false) : readRegister w s = .ok w := by
  simp [readRegister, h]

/-! ### Views -/

theorem zext32_toNat (v : View) {n : Nat} (h : n < 2 ^ 32) : (zext32 v n).toNat = n := by
  have h' : n < 4294967296 := by simpa using h
  simp [zext32, h', Nat.mod_eq_of_lt h']

theorem twos32_toInt (v : View) {x : Int} (lo : -2 ^ 31 ≤ x) (hi : x < 2 ^ 31) : (twos32 v x).toInt = x := by
  have lo' : -2147483648 ≤ x := by simpa using lo
  have hi' : x < 2147483648 := by simpa using hi
  rw [twos32, if_pos ⟨lo', hi'⟩, BitVec.toInt_ofInt]
  apply Int.bmod_eq_of_le <;> omega

/-! ### Codes -/

theorem Trit.val_bounds (t : Trit) : -1 ≤ t.val ∧ t.val ≤ 1 := by cases t <;> decide

theorem Trit.val_cases (t : Trit) : t.val = -1 ∨ t.val = 0 ∨ t.val = 1 := by cases t <;> simp [Trit.val]

theorem Trit.val_ofDigit {n : Nat} (h : n < 3) : (Trit.ofDigit n).val = (n : Int) - 1 := by
  match n, h with
  | 0, _ => rfl
  | 1, _ => rfl
  | 2, _ => rfl

@[simp] theorem Trit.val_negate (t : Trit) : t.negate.val = -t.val := by cases t <;> rfl

theorem Code.sum_eq (c : Code) :
    c.sum = c.c0.val + c.c1.val + c.c2.val + c.c3.val + c.c4.val + c.c5.val := by
  simp [Code.sum, Code.vals, Code.trits]; omega

@[simp] theorem Code.vals_length (c : Code) : c.vals.length = 6 := rfl

theorem Code.sum_bounds (c : Code) : -6 ≤ c.sum ∧ c.sum ≤ 6 := by
  rw [Code.sum_eq]
  have := c.c0.val_bounds; have := c.c1.val_bounds; have := c.c2.val_bounds
  have := c.c3.val_bounds; have := c.c4.val_bounds; have := c.c5.val_bounds
  omega

@[simp] theorem Code.zero_sum : Code.zero.sum = 0 := by decide

theorem decomposeTrit_val (d i : Nat) : (decomposeTrit d i).val = ((d / 3 ^ i % 3 : Nat) : Int) - 1 :=
  Trit.val_ofDigit (Nat.mod_lt _ (by decide))

theorem invertCode_vals (c : Code) : (invertCode c).vals = c.vals.map (fun v => -v) := by
  simp [invertCode, Code.vals, Code.trits]

theorem invertCode_sum (c : Code) : (invertCode c).sum = -c.sum := by
  simp only [Code.sum_eq, invertCode, Trit.val_negate]; omega

/-- A flipped trit and the running sum it leaves: the running sum moves by what the trit moves. -/
theorem flipTrit_balance (t : Trit) (rs : Int) : (flipTrit t rs).2 - (flipTrit t rs).1.val = rs - t.val := by
  cases t <;> simp [flipTrit, Trit.val]; omega

/-- FlipPositives moves the running sum by what it moves the code's sum (43_byte_encoder_8b6t.md R111). -/
theorem flipPositives_balance (c : Code) (rs : Int) :
    (flipPositives c rs).2 - (flipPositives c rs).1.sum = rs - c.sum := by
  simp only [flipPositives, Code.sum_eq]
  have h0 := flipTrit_balance c.c0 rs
  have h1 := flipTrit_balance c.c1 (flipTrit c.c0 rs).2
  have h2 := flipTrit_balance c.c2 (flipTrit c.c1 (flipTrit c.c0 rs).2).2
  have h3 := flipTrit_balance c.c3 (flipTrit c.c2 (flipTrit c.c1 (flipTrit c.c0 rs).2).2).2
  have h4 := flipTrit_balance c.c4 (flipTrit c.c3 (flipTrit c.c2 (flipTrit c.c1 (flipTrit c.c0 rs).2).2).2).2
  have h5 := flipTrit_balance c.c5
    (flipTrit c.c4 (flipTrit c.c3 (flipTrit c.c2 (flipTrit c.c1 (flipTrit c.c0 rs).2).2).2).2).2
  omega

/-! ### The symbol steps, field by field -/

theorem symbolEnabled_iff (sch : Scheme) (s : State) :
    symbolEnabled sch s = true ↔ s.run = .busy .symbols ∧ s.scheme = sch ∧ s.symIdx < symbolCount s := by
  simp [symbolEnabled]

/-- What a pair step leaves, whole (42_pair_encoder_2b1q.md R93, R97, R102). -/
theorem emitLevel_eq (p : Nat) (level : Int) (s : State) :
    emitLevel p level s =
      { s with
        output := s.output ++ [level]
        prevLevel := level
        trace := s.trace ++
          [(pairRecord (s.symIdx + 1) p s.prevLevel level (s.output.length + 1)).stamp s.scheme]
        symIdx := s.symIdx + 1
        run := if s.symIdx + 1 = symbolCount s then .done else s.run } := by
  refine State.ext rfl rfl rfl rfl rfl rfl rfl ?_ rfl rfl rfl rfl rfl rfl
  simp [emitLevel]

/-- What a byte step leaves, whole (43_byte_encoder_8b6t.md R104, R112, R113). -/
theorem emitByte_eq (d : Nat) (s : State) :
    emitByte d s =
      let w := encodeByte (s.symIdx + 1) d s.runningSum s.prevCode
      { s with
        runningSum := w.rs
        prevCode := w.code
        output := s.output ++ w.code.vals
        trace := s.trace ++ w.records.map (TraceRecord.stamp s.scheme) ++
          [(finalRecord (s.symIdx + 1) w.code (s.output.length + 6) w.rs).stamp s.scheme]
        symIdx := s.symIdx + 1
        run := if s.symIdx + 1 = symbolCount s then .done else s.run } := by
  have run : (emitByte d s).run = if s.symIdx + 1 = symbolCount s then .done else s.run := by
    have same : ∀ a b : State, a.symIdx = b.symIdx → symbolCount a = symbolCount b → a.run = b.run →
        (finishSymbol a).run = (finishSymbol b).run := by
      intro a b h1 h2 h3; simp only [finishSymbol_run, h1, h2, h3]
    exact same _ s (by simp [commitByte]) (by simp [symbolCount, commitByte]) (by simp [commitByte])
  refine State.ext ?_ run ?_ ?_ ?_ ?_ ?_ ?_ ?_ ?_ ?_ ?_ ?_ ?_ <;> simp [emitByte, commitByte]

/-- The running sum less the code's sum is what a byte step started from (43_byte_encoder_8b6t.md R111). -/
theorem encodeByte_balance (index d : Nat) (rs : Int) (prev : Code) :
    (encodeByte index d rs prev).rs = rs + (encodeByte index d rs prev).code.sum := by
  have start : (startByte index d rs).rs = rs + (startByte index d rs).code.sum := rfl
  have positive : ∀ w : ByteWork, w.rs = rs + w.code.sum →
      (correctPositive index (decompose d).sum w).rs = rs + (correctPositive index (decompose d).sum w).code.sum := by
    intro w hw
    unfold correctPositive
    split
    · have := flipPositives_balance w.code w.rs
      simp only; omega
    · exact hw
  have alternation : ∀ w : ByteWork, w.rs = rs + w.code.sum →
      (correctAlternation index prev.sum w).rs = rs + (correctAlternation index prev.sum w).code.sum := by
    intro w hw
    simp only [correctAlternation]
    split
    · simp only [invertCode_sum]; omega
    · exact hw
  exact alternation _ (positive _ start)

/-! ### Commands -/

theorem decodeCommand_none_iff (c : Word) :
    decodeCommand c = none ↔ c ≠ 0x00000000#32 ∧ c ≠ 0x00000001#32 ∧ c ≠ 0x00000005#32 ∧ c ≠ 0x00000002#32 := by
  simp only [decodeCommand]
  split <;> [skip; split <;> [skip; split <;> [skip; split]]] <;> simp_all

/-! ### Symbols -/

theorem bitOf_eq_none {c : Byte} (h0 : c ≠ 0x30#8) (h1 : c ≠ 0x31#8) : bitOf c = none := by simp [bitOf, h0, h1]

/-- A symbol with a character that has no bit has no value (30_encoding.md R63). -/
theorem charsValue_eq_none {c : Byte} (hc : bitOf c = none) :
    ∀ (cs : List Byte) (acc : Nat), c ∈ cs → charsValue cs acc = none
  | d :: cs, acc, h => by
    simp only [charsValue]
    split
    · rfl
    · rcases List.mem_cons.mp h with rfl | h
      · simp_all
      · exact charsValue_eq_none hc cs _ h

/-! ### What an instruction and a step can do -/

/-- Every way an instruction or an access can change the state. -/
inductive Effect (s : State) : State → Prop where
  | nothing (h : s.busy = false) : Effect s s
  | frame (sch : Scheme) (h : s.busy = false) : Effect s (startFrame sch s)
  | clear (h : s.busy = false) : Effect s (resetBlock s)
  | illegal (c : Word) (h : s.busy = false) (hc : decodeCommand c = none) : Effect s (raiseIllegalCommand c s)
  | push (c : Byte) (h : s.busy = false) (room : s.cfg.isFull s.input.length = false) : Effect s (appendInput c s)
  | reply (w : Word) : Effect s (giveReply w s)
  | validated (h : s.run = .busy .validate) : Effect s (admitFrame (validateFrame s.input s.scheme) s)
  | level (p : Nat) (l : Int) (h : symbolEnabled .twoB1Q s = true) (hl : l = -3 ∨ l = -1 ∨ l = 1 ∨ l = 3) :
      Effect s (emitLevel p l s)
  | byte (d : Byte) (h : symbolEnabled .eightB6T s = true) : Effect s (emitByte d.toNat s)

theorem answer_effect {s t : State} {r : Except Refusal Word} (h : answer r s = .next t) : Effect s t := by
  obtain ⟨w, -, rfl⟩ := answer_next.mp h
  exact .reply w

theorem commandEffect_effect (k : Command) {s : State} (h : s.busy = false) : Effect s (commandEffect k s) := by
  cases k
  · exact .nothing h
  · exact .frame _ h
  · exact .frame _ h
  · exact .clear h

theorem pairStep_effect {p : Nat} {l : Int} {s t : State} (h : pairStep p l s = .next t)
    (hl : l = -3 ∨ l = -1 ∨ l = 1 ∨ l = 3) : Effect s t := by
  unfold pairStep at h
  split at h
  · cases h; exact .level p l ‹_› hl
  · cases h

/-- An instruction that answers a next state had one of the effects. -/
theorem exec_effect {i : Instr} {s t : State} (h : exec i s = .next t) : Effect s t := by
  have command : ∀ k, unlessBusy s (fun s => .next (commandEffect k s)) = .next t → Effect s t := by
    intro k hk
    obtain ⟨hb, he⟩ := unlessBusy_next.mp hk
    cases he
    exact commandEffect_effect k hb
  cases i with
  | nop => exact command .nop h
  | encode2b1q => exact command .encode2b1q h
  | encode8b6t => exact command .encode8b6t h
  | clear => exact command .clear h
  | wrCmd c =>
    simp only [exec, execWrCmd] at h
    obtain ⟨hb, he⟩ := unlessBusy_next.mp h
    split at he
    · cases he; exact commandEffect_effect _ hb
    · cases he; exact .illegal c hb ‹_›
  | wrInData v =>
    simp only [exec, execWrInData] at h
    obtain ⟨hb, he⟩ := unlessBusy_next.mp h
    split at he
    · cases he
    · rename_i room
      cases he; exact .push _ hb (by simpa using room)
  | rdStatus => cases h; exact .reply _
  | rdErrInfo | rdInLen | rdOutLen | rdTraceLen | rdSymIdx | rdPrevLevel | rdRunningSum | rdPrevCode | rdPrevSum =>
    exact answer_effect h
  | rdIn k | rdOut k => exact answer_effect h
  | rdTr k f => exact answer_effect h
  | pair00 => exact pairStep_effect h (by split <;> simp)
  | pair01 => exact pairStep_effect h (by split <;> simp)
  | pair10 => exact pairStep_effect h (by split <;> simp)
  | pair11 => exact pairStep_effect h (by split <;> simp)
  | byte d =>
    simp only [exec, execByte] at h
    split at h
    · cases h; exact .byte d ‹_›
    · cases h
  | validate =>
    simp only [exec, execValidate] at h
    split at h
    · cases h; exact .validated ‹_›
    · cases h

theorem rejectHostItem_effect {e : DecodeError} {s t : State} (h : rejectHostItem e s = .next t)
    (he : ∀ c, e = .illegalCommand c → decodeCommand c = none) : Effect s t := by
  obtain ⟨hb, h'⟩ := unlessBusy_next.mp h
  cases e with
  | illegalCommand c => cases h'; exact .illegal c hb (he c rfl)
  | keyNotAdmitted k => cases h'
  | wrongOperands k => cases h'
  | fieldOutOfRange f => cases h'
  | notBinary => cases h'

/-- The decoder names a command word illegal only when it is none of the four. -/
theorem decode_illegalCommand {x : Item} {c : Word} (h : decode x = .error (.illegalCommand c)) :
    x = .cmd c ∧ decodeCommand c = none := by
  cases x with
  | cmd c' =>
    simp only [decode, decodeCmd] at h
    split at h
    · cases h
    · cases h; exact ⟨rfl, ‹_›⟩
  | access k ops =>
    have no : ∀ i, noOperand i k ops ≠ .error (.illegalCommand c) := by
      intro i; unfold noOperand; split <;> simp
    have one : ∀ i, oneOperand i k ops ≠ .error (.illegalCommand c) := by
      intro i; unfold oneOperand; split <;> simp
    have two : traceOperands k ops ≠ .error (.illegalCommand c) := by
      unfold traceOperands; split <;> [split <;> simp; simp]
    have ite : ∀ (p : Prop) [Decidable p] (a b : Except DecodeError Instr), a ≠ .error (.illegalCommand c) →
        b ≠ .error (.illegalCommand c) → (if p then a else b) ≠ .error (.illegalCommand c) := by
      intro p _ a b ha hb; split <;> assumption
    refine absurd h ?_
    show decodeAccess k ops ≠ _
    unfold decodeAccess
    iterate 2 refine ite _ _ _ (one _) ?_
    iterate 10 refine ite _ _ _ (no _) ?_
    iterate 2 refine ite _ _ _ (one _) ?_
    exact ite _ _ _ two (by simp)
  | sym2 c0 c1 => simp only [decode, decodeSym2] at h; split at h <;> cases h
  | sym8 c0 c1 c2 c3 c4 c5 c6 c7 => simp only [decode, decodeSym8] at h; split at h <;> cases h
  | step => cases h

theorem hostStep_effect {x : Item} {s t : State} (h : hostStep x s = .next t) : Effect s t := by
  unfold hostStep at h
  split at h
  · exact exec_effect h
  · rename_i e he
    exact rejectHostItem_effect h (fun c hc => (decode_illegalCommand (hc ▸ he)).2)

theorem encoderStep_effect {s t : State} (h : encoderStep s = .next t) : s.busy = true ∧ Effect s t := by
  unfold encoderStep at h
  split at h
  · refine ⟨(busy_eq_true_iff s).mpr ⟨_, ‹_›⟩, ?_⟩
    split at h
    · cases h
    · split at h
      · exact exec_effect h
      · cases h
  all_goals cases h

/-- A step that answers a next state: the reset input, or one effect in the state whose next event is taken. -/
theorem step_effect {s t : State} (h : step s = .next t) :
    ∃ rest, (t = resetBlock { s with pending := rest } ∧ s.pending = .reset :: rest) ∨
      Effect { s with pending := rest } t := by
  unfold step at h
  split at h
  · refine ⟨[], .inr ?_⟩
    have : ({ s with pending := [] } : State) = s := by cases s; simp_all
    rw [this]; exact (encoderStep_effect h).2
  · exact ⟨_, .inr (encoderStep_effect h).2⟩
  · cases h; exact ⟨_, .inl ⟨rfl, ‹_›⟩⟩
  · exact ⟨_, .inr (hostStep_effect h)⟩
  · exact ⟨_, .inr (hostStep_effect h)⟩

/-- No effect touches the events still to come. -/
theorem effect_pending {s t : State} (e : Effect s t) : t.pending = s.pending := by
  cases e with
  | validated h =>
    simp only [admitFrame]
    split
    · rfl
    · split <;> rfl
  | level p l h hl => rw [emitLevel_eq]
  | byte d h => rw [emitByte_eq]
  | nothing h => rfl
  | frame sch h => rfl
  | clear h => rfl
  | illegal c h hc => rfl
  | push c h room => rfl
  | reply w => rfl

/-- A step takes the first event and no other. -/
theorem step_pending {s t : State} (h : step s = .next t) : t.pending = s.pending.tail := by
  unfold step at h
  split at h <;> rename_i hp <;> rw [hp]
  · rw [effect_pending (encoderStep_effect h).2, hp]; rfl
  · exact effect_pending (encoderStep_effect h).2
  · cases h; rfl
  · exact effect_pending (hostStep_effect h)
  · exact effect_pending (hostStep_effect h)

end Sys2Proof.Machine
end

