-- ==== Sys2Proof/Laws/HostProgram.lean ====
section
/-! SUPPORT. What carrying out a host program can do, said once. -/

namespace Sys2Proof.Machine

@[simp] theorem carryOut_nil (p : List HostOp) (s : State) :
    carryOut p [] s = some (p, { s with pending := [] }) := rfl

/-- The first event of an order that is carried out: a step that answered, and an event the program allows. -/
theorem carryOut_cons {p : List HostOp} {e : Event} {es : List Event} {s : State} {r : List HostOp × State} :
    carryOut p (e :: es) s = some r ↔
      ∃ t p', step { s with pending := e :: es } = .next t ∧ advanceProgram p e t = some p' ∧
        carryOut p' es t = some r := by
  simp only [carryOut]
  cases step { s with pending := e :: es } with
  | next t => cases h : advanceProgram p e t <;> simp [h]
  | fault f => simp
  | refused f => simp

/-- One event at the front of an order. -/
theorem carryOut_step {p p' : List HostOp} {e : Event} {es : List Event} {s t : State}
    (hs : step { s with pending := e :: es } = .next t) (hp : advanceProgram p e t = some p') :
    carryOut p (e :: es) s = carryOut p' es t := by simp [carryOut, hs, hp]

@[simp] theorem advanceProgram_encoder (p : List HostOp) (t : State) : advanceProgram p .encoder t = some p := rfl
@[simp] theorem advanceProgram_reset (p : List HostOp) (t : State) : advanceProgram p .reset t = some p := rfl
@[simp] theorem advanceProgram_done (h : Byte) (ops : List Word) (t : State) :
    advanceProgram [] (.access h ops) t = none := rfl

@[simp] theorem advanceProgram_access (h : Byte) (ops : List Word) (p : List HostOp) (t : State) :
    advanceProgram (.access h ops :: p) (.access h ops) t = some p := by
  simp [advanceProgram, Event.fromHost, HostOp.event, HostOp.repeats]

theorem advanceProgram_wait (p : List HostOp) (t : State) (w : Word) (hw : t.replies.getLast? = some w) :
    advanceProgram (.wait :: p) (.access 0x01#8 []) t = some (if waitsAgain w then .wait :: p else p) := by
  simp [advanceProgram, Event.fromHost, HostOp.event, HostOp.repeats, ReadReg.key, hw]

theorem advanceProgram_other {op : HostOp} {e : Event} (he : e.fromHost = true) (hne : e ≠ op.event)
    (p : List HostOp) (t : State) : advanceProgram (op :: p) e t = none := by
  simp [advanceProgram, he, hne]

theorem runEnded_iff (s : State) :
    s.runEnded = true ↔ s.busy = false ∧ ∀ e ∈ s.pending, e.fromHost = false := by
  simp [State.runEnded, and_comm]

theorem observeRun_of_runEnded {s : State} (h : s.runEnded = true) (k : Nat) : observeRun k s = some s.block := by
  cases k <;> simp [observeRun, h]

end Sys2Proof.Machine
end

