-- ==== Sys2Proof/Laws/Memory.lean ====
section
/-! SUPPORT. The buffers stay within their form: IN fits its capacity after every operation, and after reset. -/

namespace Sys2Proof.Machine

theorem admits_succ {c : Config} {n : Nat} (fits : c.admits n = true) (room : c.isFull n = false) :
    c.admits (n + 1) = true := by
  cases c with
  | mk m => cases m <;> simp_all [Config.admits, Config.isFull]; omega

theorem admits_zero (c : Config) : c.admits 0 = true := by
  cases c with
  | mk m => cases m <;> simp [Config.admits]

theorem reset_wf : Memory.wf State.reset := by decide

theorem resetWith_wf (c : Config) : Memory.wf (State.resetWith c) := admits_zero c

theorem appendInput_wf {c : Byte} {s : State} (h : Memory.wf s) (room : s.cfg.isFull s.input.length = false) :
    Memory.wf (appendInput c s) := by
  simpa [Memory.wf] using admits_succ h room

theorem resetBlock_wf (s : State) : Memory.wf (resetBlock s) := admits_zero s.cfg

/-- The operations that leave IN alone. -/
theorem appendOutAll_wf (vs : List Int) {s : State} (h : Memory.wf s) : Memory.wf (appendOutAll vs s) := by
  simpa [Memory.wf] using h

theorem traceAppendAll_wf (rs : List TraceRecord) {s : State} (h : Memory.wf s) : Memory.wf (traceAppendAll rs s) := by
  simpa [Memory.wf] using h

theorem appendOut_wf (v : Int) {s : State} (h : Memory.wf s) : Memory.wf (appendOut v s) := h

theorem traceAppend_wf (r : TraceRecord) {s : State} (h : Memory.wf s) : Memory.wf (traceAppend r s) := h

theorem admitFrame_wf (v : Verdict) {s : State} (h : Memory.wf s) : Memory.wf (admitFrame v s) := by
  unfold admitFrame
  split
  · exact h
  · split <;> exact h

/-- Every effect keeps IN within its capacity. -/
theorem effect_wf {s t : State} (e : Effect s t) (h : Memory.wf s) : Memory.wf t := by
  cases e with
  | push c hb room => exact appendInput_wf h room
  | clear hb => exact resetBlock_wf s
  | validated hv => exact admitFrame_wf _ h
  | byte d hd => rw [emitByte_eq]; exact h
  | level p l hd hl => rw [emitLevel_eq]; exact h
  | nothing hb => exact h
  | frame sch hb => exact h
  | illegal c hb hc => exact h
  | reply w => exact h

end Sys2Proof.Machine
end

