-- ==== Sys2Proof/Laws/PerInstr.lean ====
section
/-! SUPPORT. The family TableRow: an instruction's encoding is one that its row of spec/opcode_table.json matches, by
the row's own format, mask and match. -/

namespace Sys2Proof.Laws

/-- The formats of 30_encoding.md R53 and R64. -/
inductive Format where
  | cmd32 | hostKey | sym2 | sym8 | stepRow
deriving DecidableEq, Repr

/-- An item's format and the number the table's match and mask are over: the command word, the key, or the value of
the symbol (30_encoding.md R54, R57, R58, R59). -/
def itemNumber : Item → Format × Nat
  | .cmd c => (.cmd32, c.toNat)
  | .access h _ => (.hostKey, h.toNat)
  | .sym2 c0 c1 => (.sym2, (charsValue [c0, c1] 0).getD 4)
  | .sym8 c0 c1 c2 c3 c4 c5 c6 c7 => (.sym8, (charsValue [c0, c1, c2, c3, c4, c5, c6, c7] 0).getD 256)
  | .step => (.stepRow, 0)

/-- The row of an instruction: format, mask, match. -/
def tableRow : Instr → Format × Nat × Nat
  | .nop => (.cmd32, 0xFFFFFFFF, 0x00000000)
  | .encode2b1q => (.cmd32, 0xFFFFFFFF, 0x00000001)
  | .encode8b6t => (.cmd32, 0xFFFFFFFF, 0x00000005)
  | .clear => (.cmd32, 0xFFFFFFFF, 0x00000002)
  | .wrCmd _ => (.hostKey, 0xFF, 0x80)
  | .wrInData _ => (.hostKey, 0xFF, 0x83)
  | .rdStatus => (.hostKey, 0xFF, 0x01)
  | .rdErrInfo => (.hostKey, 0xFF, 0x02)
  | .rdInLen => (.hostKey, 0xFF, 0x04)
  | .rdOutLen => (.hostKey, 0xFF, 0x05)
  | .rdTraceLen => (.hostKey, 0xFF, 0x06)
  | .rdSymIdx => (.hostKey, 0xFF, 0x07)
  | .rdPrevLevel => (.hostKey, 0xFF, 0x08)
  | .rdRunningSum => (.hostKey, 0xFF, 0x09)
  | .rdPrevCode => (.hostKey, 0xFF, 0x0A)
  | .rdPrevSum => (.hostKey, 0xFF, 0x0B)
  | .rdIn _ => (.hostKey, 0xFF, 0x20)
  | .rdOut _ => (.hostKey, 0xFF, 0x40)
  | .rdTr _ _ => (.hostKey, 0xFF, 0x60)
  | .pair00 => (.sym2, 0x3, 0x0)
  | .pair01 => (.sym2, 0x3, 0x1)
  | .pair10 => (.sym2, 0x3, 0x2)
  | .pair11 => (.sym2, 0x3, 0x3)
  | .byte _ => (.sym8, 0x00, 0x00)
  | .validate => (.stepRow, 0x0, 0x0)

namespace TableRow

/-- The encoding has the row's format, and its number under the row's mask is the row's match. -/
def Statement (i : Instr) : Prop :=
  (itemNumber (encode i)).1 = (tableRow i).1 ∧
    (itemNumber (encode i)).2 &&& (tableRow i).2.1 = (tableRow i).2.2

theorem nop : Statement .nop := ⟨by decide, by decide⟩
theorem encode2b1q : Statement .encode2b1q := ⟨by decide, by decide⟩
theorem encode8b6t : Statement .encode8b6t := ⟨by decide, by decide⟩
theorem clear : Statement .clear := ⟨by decide, by decide⟩
theorem wrCmd (c : Word) : Statement (.wrCmd c) := ⟨rfl, by simp [itemNumber, encode, tableRow]⟩
theorem wrInData (v : Word) : Statement (.wrInData v) := ⟨rfl, by simp [itemNumber, encode, tableRow]⟩
theorem rdStatus : Statement .rdStatus := ⟨by decide, by decide⟩
theorem rdErrInfo : Statement .rdErrInfo := ⟨by decide, by decide⟩
theorem rdInLen : Statement .rdInLen := ⟨by decide, by decide⟩
theorem rdOutLen : Statement .rdOutLen := ⟨by decide, by decide⟩
theorem rdTraceLen : Statement .rdTraceLen := ⟨by decide, by decide⟩
theorem rdSymIdx : Statement .rdSymIdx := ⟨by decide, by decide⟩
theorem rdPrevLevel : Statement .rdPrevLevel := ⟨by decide, by decide⟩
theorem rdRunningSum : Statement .rdRunningSum := ⟨by decide, by decide⟩
theorem rdPrevCode : Statement .rdPrevCode := ⟨by decide, by decide⟩
theorem rdPrevSum : Statement .rdPrevSum := ⟨by decide, by decide⟩
theorem rdIn (k : Word) : Statement (.rdIn k) := ⟨rfl, by simp [itemNumber, encode, tableRow]⟩
theorem rdOut (k : Word) : Statement (.rdOut k) := ⟨rfl, by simp [itemNumber, encode, tableRow]⟩
theorem rdTr (k f : Word) : Statement (.rdTr k f) := ⟨rfl, by simp [itemNumber, encode, tableRow]⟩
theorem pair00 : Statement .pair00 := ⟨by decide, by decide⟩
theorem pair01 : Statement .pair01 := ⟨by decide, by decide⟩
theorem pair10 : Statement .pair10 := ⟨by decide, by decide⟩
theorem pair11 : Statement .pair11 := ⟨by decide, by decide⟩
theorem byte (d : Byte) : Statement (.byte d) := ⟨rfl, by simp [tableRow]⟩
theorem validate : Statement .validate := ⟨by decide, by decide⟩

end TableRow

end Sys2Proof.Laws
end

