-- ==== Sys2Proof/Laws/Run.lean ====
section
/-! SUPPORT. How a run of several steps goes on from its first step. -/

namespace Sys2Proof.Machine

@[simp] theorem run_zero (s : State) : Host.Core.run Sys2Proof.core 0 s = .next s := rfl

theorem core_run_succ_next (M : Host.Core) {s t : M.State} (h : M.step s = .next t) (k : Nat) :
    M.run (k + 1) s = M.run k t := by rw [Host.Core.run, h]

theorem core_run_succ_fault (M : Host.Core) {s : M.State} {f : M.Fault} (h : M.step s = .fault f) (k : Nat) :
    M.run (k + 1) s = .fault f := by rw [Host.Core.run, h]

theorem core_run_succ_refused (M : Host.Core) {s : M.State} {r : M.Refusal} (h : M.step s = .refused r) (k : Nat) :
    M.run (k + 1) s = .refused r := by rw [Host.Core.run, h]

theorem run_succ_next {s t : State} (h : step s = .next t) (k : Nat) :
    Host.Core.run Sys2Proof.core (k + 1) s = Host.Core.run Sys2Proof.core k t :=
  core_run_succ_next Sys2Proof.core h k

theorem run_succ_fault {s : State} {f : Fault} (h : step s = .fault f) (k : Nat) :
    Host.Core.run Sys2Proof.core (k + 1) s = .fault f :=
  core_run_succ_fault Sys2Proof.core h k

theorem run_succ_refused {s : State} {r : Refusal} (h : step s = .refused r) (k : Nat) :
    Host.Core.run Sys2Proof.core (k + 1) s = .refused r :=
  core_run_succ_refused Sys2Proof.core h k

/-- A run that answers a next state made a first step that did. -/
theorem run_succ_inv {s u : State} {k : Nat} (h : Host.Core.run Sys2Proof.core (k + 1) s = .next u) :
    ∃ t : State, step s = .next t ∧ Host.Core.run Sys2Proof.core k t = .next u := by
  cases hs : step s with
  | next t => exact ⟨t, rfl, run_succ_next hs k ▸ h⟩
  | fault f => rw [run_succ_fault hs] at h; cases h
  | refused r => rw [run_succ_refused hs] at h; cases h

end Sys2Proof.Machine
end

