-- ==== Sys2Proof/Tests/Slice0.lean ====
section
/-! SUPPORT. The model's own tests: WellFormed's smoke test, decoding of words written out from the spec's encodings,
one-step results taken from the spec's worked examples and vectors (95_test_vectors.md and the rules' examples), and,
for each statement with hypotheses, a concrete state and operands that meet them. -/

namespace Sys2Proof.Tests

open Sys2Proof.Machine

/-! ### Helpers -/

/-- The outcome is a next state with this property. -/
def nextHas (o : Out) (p : State → Bool) : Bool :=
  match o with
  | .next t => p t
  | .fault _ => false
  | .refused _ => false

/-- The outcome is this refusal. -/
def refusedBy (o : Out) (r : Refusal) : Bool :=
  match o with
  | .next _ => false
  | .fault _ => false
  | .refused r' => r' == r

/-- '0' and '1' from bits. -/
def chars (bits : List Bool) : List Byte := bits.map charOf

/-- After reset, with these characters in IN. -/
def withInput (inp : List Byte) : State := { State.reset with input := inp }

/-- Right after ENCODE of a scheme. -/
def validating (sch : Scheme) (inp : List Byte) : State :=
  { withInput inp with run := .busy .validate, scheme := sch }

/-- In PHASE SYMBOLS before the first symbol, the preliminary records in TRACE. -/
def atFirstSymbol (sch : Scheme) (inp : List Byte) : State :=
  { withInput inp with run := .busy .symbols, scheme := sch, trace := preliminaryRecords sch inp.length }

/-- Scenario A's frame "0001". -/
def inputA : List Byte := [0x30#8, 0x30#8, 0x30#8, 0x31#8]

/-- Scenario A after its first pair (95_test_vectors.md section 1). -/
def pairState : State :=
  { atFirstSymbol .twoB1Q inputA with
    output := [-1], prevLevel := -1, symIdx := 1
    trace := preliminaryRecords .twoB1Q 4 ++ [pairRecord 1 0 0 (-1) 1] }

/-- Scenario A at DONE. -/
def doneA : State :=
  { pairState with
    run := .done, output := [-1, -3], prevLevel := -3, symIdx := 2
    trace := pairState.trace ++ [pairRecord 2 1 (-1) (-3) 2] }

/-- The eight characters of 242 (95_test_vectors.md V8-2). -/
def chars242 : List Byte := chars [true, true, true, true, false, false, true, false]

/-- Vector V8-7, [242, 242], before its first byte. -/
def byteState : State := atFirstSymbol .eightB6T (chars242 ++ chars242)

/-- V8-7 after its first byte: the carry is six −1 trits and the running sum −6 (95_test_vectors.md V8-7). -/
def byteState2 : State :=
  { byteState with
    output := [-1, -1, -1, -1, -1, -1], runningSum := -6, prevCode := ⟨.neg, .neg, .neg, .neg, .neg, .neg⟩
    symIdx := 1
    trace := byteState.trace ++
      [{ decomposeRecord 1 242 ⟨.pos, .pos, .pos, .pos, .pos, .neg⟩ with scheme := .eightB6T },
       { dcBalanceRecord 1 4 ⟨.pos, .pos, .pos, .pos, .pos, .neg⟩ ⟨.neg, .neg, .neg, .neg, .neg, .neg⟩ (-6) with
         scheme := .eightB6T },
       { finalRecord 1 ⟨.neg, .neg, .neg, .neg, .neg, .neg⟩ 6 (-6) with scheme := .eightB6T }] }

/-- An ERROR state with ERR_CODE 1 after "01x1" (95_test_vectors.md VV-5). -/
def errorState : State :=
  { withInput [0x30#8, 0x31#8, 0x78#8, 0x31#8] with run := .error, errCode := .invalidCharacter, errInfo := 2#32 }

/-! ### WellFormed refuses an ill-formed term (30_encoding.md R57: "a field number f in 0–13") -/

theorem test_rdTr_field_14_ill_formed : WellFormed (.rdTr 0#32 14#32) = false := by decide
theorem test_rdTr_field_13_well_formed : WellFormed (.rdTr 0#32 13#32) = true := by decide

/-! ### Decoding: each row's item written out from its encoding (30_encoding.md R55, R57, R58, R59, R64) -/

theorem test_decode_nop : decode (.cmd 0x00000000#32) = .ok .nop := by decide
theorem test_decode_encode2b1q : decode (.cmd 0x00000001#32) = .ok .encode2b1q := by decide
theorem test_decode_encode8b6t : decode (.cmd 0x00000005#32) = .ok .encode8b6t := by decide
theorem test_decode_clear : decode (.cmd 0x00000002#32) = .ok .clear := by decide
theorem test_decode_wrCmd : decode (.access 0b10000000#8 [3#32]) = .ok (.wrCmd 3#32) := by decide
theorem test_decode_wrInData : decode (.access 0b10000011#8 [0x131#32]) = .ok (.wrInData 0x131#32) := by decide
theorem test_decode_register_reads :
    [0x01#8, 0x02#8, 0x04#8, 0x05#8, 0x06#8, 0x07#8, 0x08#8, 0x09#8, 0x0A#8, 0x0B#8].map
        (fun h => (decode (.access h [])).toOption) =
      [some .rdStatus, some .rdErrInfo, some .rdInLen, some .rdOutLen, some .rdTraceLen, some .rdSymIdx,
       some .rdPrevLevel, some .rdRunningSum, some .rdPrevCode, some .rdPrevSum] := by decide
theorem test_decode_rdIn : decode (.access 0b00100000#8 [1#32]) = .ok (.rdIn 1#32) := by decide
theorem test_decode_rdOut : decode (.access 0b01000000#8 [1#32]) = .ok (.rdOut 1#32) := by decide
theorem test_decode_rdTr : decode (.access 0b01100000#8 [3#32, 11#32]) = .ok (.rdTr 3#32 11#32) := by decide
theorem test_decode_pairs :
    [(0x30#8, 0x30#8), (0x30#8, 0x31#8), (0x31#8, 0x30#8), (0x31#8, 0x31#8)].map
        (fun c => (decode (.sym2 c.1 c.2)).toOption) =
      [some .pair00, some .pair01, some .pair10, some .pair11] := by decide
/-- V8-2: "11110010" is d = 242. -/
theorem test_decode_byte :
    decode (.sym8 0x31#8 0x31#8 0x31#8 0x31#8 0x30#8 0x30#8 0x31#8 0x30#8) = .ok (.byte 242#8) := by decide
theorem test_decode_validate : decode .step = .ok .validate := by decide

/-- VC-5 to VC-11: words that are not commands. -/
theorem test_decode_illegal_words :
    [3#32, 4#32, 6#32, 7#32, 8#32, 0x80000001#32, 0xFFFFFFFF#32].all (fun c => (decode (.cmd c)).toOption == none) =
      true := by decide
/-- VH-6: keys that are refused. -/
theorem test_decode_refused_keys :
    [0x00#8, 0x03#8, 0x0C#8, 0x81#8, 0xA0#8].all
        (fun h => decide (decode (.access h []) = .error (.keyNotAdmitted h))) = true := by decide
/-- VH-4: `RDTR r, 3, 14` is refused. -/
theorem test_decode_field_14 : decode (.access 0x60#8 [3#32, 14#32]) = .error (.fieldOutOfRange 14#32) := by decide
/-- R63: 'x' (0x78) is no bit. -/
theorem test_decode_not_binary : decode (.sym2 0x30#8 0x78#8) = .error .notBinary := by decide

/-- Opcode-table words by their own numbering, and `step` running one right after reset (logs 6, 7). -/
theorem test_table_words :
    decodeTableWord 32 5 = some .encode8b6t ∧ decodeTableWord 8 0x83 = some (.wrInData 0#32) ∧
      decodeTableWord 8 0x60 = some (.rdTr 0#32 0#32) ∧ decodeTableWord 2 1 = some .pair01 ∧
      decodeTableWord 0 0 = some .validate := by decide
theorem test_withFetchWord_pair11 :
    nextHas (step (State.reset.withFetchWord 2 3)) (fun t => t.output == [3] && t.run == .done) = true := by decide

/-! ### Commands (40_host_interface.md R69–R72 and their examples) -/

/-- R70 example: in DONE with OUT_LEN = 2, NOP leaves DONE and OUT_LEN = 2. -/
theorem test_nop : nextHas (exec .nop doneA) (fun t => t.run == .done && t.output.length == 2) = true := by decide
/-- R71 example. -/
theorem test_encode2b1q :
    nextHas (exec .encode2b1q (withInput inputA))
      (fun t => t.run == .busy .validate && t.scheme == .twoB1Q && t.output == [] && t.trace == []) = true := by decide
/-- P4: a second ENCODE discards OUT and TRACE and keeps IN. -/
theorem test_encode8b6t :
    nextHas (exec .encode8b6t doneA)
      (fun t => t.scheme == .eightB6T && t.output == [] && t.input == inputA && t.prevLevel == 0) = true := by decide
/-- R72 example, VC-14. -/
theorem test_clear :
    nextHas (exec .clear errorState) (fun t => statusWord t == 0#32 && t.errInfo == 0#32 && t.input == []) = true := by
  decide
/-- R69 example, VC-5. -/
theorem test_wrCmd_illegal :
    nextHas (exec (.wrCmd 3#32) State.reset) (fun t => statusWord t == 0x23#32 && t.errInfo == 3#32) = true := by decide
/-- VC-12: the earlier results stay. -/
theorem test_wrCmd_illegal_keeps :
    nextHas (exec (.wrCmd 3#32) doneA) (fun t => t.output == [-1, -3] && t.trace.length == 4) = true := by decide

/-! ### Accesses (40_host_interface.md R73–R78 and their examples) -/

/-- VH-1. -/
theorem test_wrInData : nextHas (exec (.wrInData 0x131#32) State.reset) (fun t => t.input == [0x31#8]) = true := by
  decide
/-- R73: refused when IN_LEN = MAX_FRAME_CHARS. -/
theorem test_wrInData_full :
    refusedBy (exec (.wrInData 0x30#32) { withInput inputA with cfg := ⟨some 4⟩ }) .inputFull = true := by decide
/-- Scenario A: STATUS = 0x00000002. VV-5: STATUS = 0x0000000B. -/
theorem test_rdStatus :
    nextHas (exec .rdStatus doneA) (fun t => t.replies == [0x00000002#32]) = true ∧
      nextHas (exec .rdStatus errorState) (fun t => t.replies == [0x0000000B#32]) = true := by decide
/-- P3: e = 2. -/
theorem test_rdErrInfo : nextHas (exec .rdErrInfo errorState) (fun t => t.replies == [2#32]) = true := by decide
/-- Scenario A's end registers, in order: IN_LEN, OUT_LEN, TRACE_LEN, SYM_IDX, PREV_LEVEL, RUNNING_SUM, PREV_CODE,
PREV_SUM. -/
theorem test_registers_scenario_a :
    [(Instr.rdInLen, 4#32), (.rdOutLen, 2#32), (.rdTraceLen, 4#32), (.rdSymIdx, 2#32), (.rdPrevLevel, 0xFFFFFFFD#32),
        (.rdRunningSum, 0#32), (.rdPrevCode, 0#32), (.rdPrevSum, 0#32)].all
        (fun q => nextHas (exec q.1 doneA) (fun t => t.replies == [q.2])) = true := by decide
/-- V8-1's end registers: RUNNING_SUM = 0xFFFFFFFA, PREV_CODE = 0x00000FFF, PREV_SUM = 0xFFFFFFFA. -/
theorem test_byte_carry_reads :
    nextHas (exec .rdRunningSum { byteState2 with run := .done }) (fun t => t.replies == [0xFFFFFFFA#32]) = true ∧
      nextHas (exec .rdPrevCode { byteState2 with run := .done }) (fun t => t.replies == [0x00000FFF#32]) = true ∧
      nextHas (exec .rdPrevSum { byteState2 with run := .done }) (fun t => t.replies == [0xFFFFFFFA#32]) = true := by
  decide
/-- VH-2. -/
theorem test_rdIn :
    nextHas (exec (.rdIn 1#32) (withInput [0x30#8, 0x61#8])) (fun t => t.replies == [0x61#32]) = true := by decide
/-- VH-3. -/
theorem test_rdOut :
    nextHas (exec (.rdOut 1#32) doneA) (fun t => t.replies == [0xFFFFFFFD#32]) = true ∧
      refusedBy (exec (.rdOut 2#32) doneA) .indexOutOfRange = true := by decide
/-- P1, line 12: record 3, field 4 is 2. -/
theorem test_rdTr : nextHas (exec (.rdTr 3#32 4#32) doneA) (fun t => t.replies == [2#32]) = true := by decide
/-- VH-4. -/
theorem test_rdTr_refused :
    refusedBy (exec (.rdTr 3#32 14#32) doneA) .fieldOutOfRange = true ∧
      refusedBy (exec (.rdTr 4#32 0#32) doneA) .indexOutOfRange = true := by decide
/-- VH-7: while BUSY. -/
theorem test_busy_window :
    nextHas (exec .rdStatus pairState) (fun t => t.replies == [1#32]) = true ∧
      refusedBy (exec .rdOutLen pairState) .accessWhileBusy = true ∧
      refusedBy (exec (.wrCmd 2#32) pairState) .accessWhileBusy = true := by decide

/-! ### The encoder's steps -/

/-- R92 example: IN = "0001". -/
theorem test_validate :
    nextHas (exec .validate (validating .twoB1Q inputA))
      (fun t => t.run == .busy .symbols && t.trace == preliminaryRecords .twoB1Q 4 && t.symIdx == 0) = true := by decide
/-- VV-6: "012" under 8B6T is InvalidCharacter at 2. -/
theorem test_validate_priority :
    nextHas (exec .validate (validating .eightB6T [0x30#8, 0x31#8, 0x32#8]))
      (fun t => statusWord t == 0x0000000F#32 && t.errInfo == 2#32) = true := by decide
/-- Scenario A, first pair: previousLevel = 0 gives −1. -/
theorem test_pair00 :
    nextHas (exec .pair00 (atFirstSymbol .twoB1Q inputA)) (fun t => t.output == [-1] && t.run == .busy .symbols) =
      true := by decide
/-- Scenario A, second pair. -/
theorem test_pair01 : nextHas (exec .pair01 pairState) (fun t => t == doneA) = true := by decide
/-- V2-7: "10" after +3 gives −1. -/
theorem test_pair10 :
    nextHas (exec .pair10 { pairState with prevLevel := 3 }) (fun t => t.prevLevel == -1) = true := by decide
/-- V2-12: "11" after −1 gives +3. -/
theorem test_pair11 : nextHas (exec .pair11 pairState) (fun t => t.prevLevel == 3) = true := by decide
/-- V8-7, first byte: flip, no inversion. -/
theorem test_byte_flip : nextHas (exec (.byte 242#8) byteState) (fun t => t == byteState2) = true := by decide
/-- V8-7, second byte: DC_BALANCE with BAL_SUM −12, then the inversion to [1, …, 1] with RUNNING_SUM 0. -/
theorem test_byte_flip_and_invert :
    nextHas (exec (.byte 242#8) byteState2)
      (fun t => t.runningSum == 0 && t.prevCode == ⟨.pos, .pos, .pos, .pos, .pos, .pos⟩ && t.run == .done &&
        (t.trace.drop 5).map (fun r => (r.kind.code, r.p0, r.p1, r.codeA, r.codeB, r.balSum, r.balViol)) ==
          [(3#4, 242, 0, 0xD55#12, 0x000#12, 0, false), (4#4, 4, 0, 0xD55#12, 0xFFF#12, -12, true),
           (5#4, -6, -6, 0xFFF#12, 0x555#12, 0, false), (6#4, 0, 0, 0x555#12, 0x000#12, 0, false)]) = true := by decide

/-- VS-1 to VS-5 and T8: decompositions. -/
theorem test_decompose :
    [0, 242, 243, 255, 121].map (fun d => (decompose d).vals) =
      [[-1, -1, -1, -1, -1, -1], [1, 1, 1, 1, 1, -1], [-1, -1, -1, -1, -1, 0], [-1, 0, 0, -1, -1, 0],
       [0, 0, 0, 0, 0, -1]] := by decide
/-- VS-7. -/
theorem test_flipPositives :
    flipPositives ⟨.pos, .pos, .zero, .zero, .zero, .neg⟩ 1 = (⟨.neg, .neg, .zero, .zero, .zero, .neg⟩, -3) := by
  decide
/-- VS-9 to VS-13. -/
theorem test_sameSigned :
    [sameSigned (-6) (-6), sameSigned (-6) 0, sameSigned 0 0, sameSigned (-1) 6, sameSigned 3 2] =
      [true, false, false, false, true] := by decide
/-- VS-15, VS-18. -/
theorem test_pack : (⟨.pos, .pos, .pos, .pos, .pos, .neg⟩ : Code).pack = 0xD55#12 ∧ Code.zero.pack = 0x000#12 := by
  decide
/-- VR-2: reset while BUSY, no error recorded. -/
theorem test_reset_input :
    nextHas (step { byteState2 with pending := [.reset] })
      (fun t => statusWord t == 0#32 && t.input == [] && t.output == [] && t.runningSum == 0) = true := by decide
/-- V8-1's frame function: [0] gives six −1 trits and four records. -/
theorem test_encodeFrame :
    (match encodeFrame (List.replicate 8 0x30#8) .eightB6T with
      | .ok r => r.output == [-1, -1, -1, -1, -1, -1] && r.trace.length == 4
      | .error _ => false) = true := by decide

/-- R66, R67: `PUSHS "01"`, `ENC2B1Q`, `WAIT r`. -/
theorem test_host_program :
    expandProgram [.pushs [0x30#8, 0x31#8], .enc2b1q, .wait] =
      [.access 0x83#8 [0x30#32], .access 0x83#8 [0x31#32], .access 0x80#8 [1#32], .wait] := by decide
/-- R66: WAIT goes on at STATUS 1 and ends at 2, 3 and 0x23. -/
theorem test_wait : [1#32, 2#32, 3#32, 0x23#32, 5#32].map waitsAgain = [true, false, false, false, true] := by decide
/-- R66: while BUSY a WAIT needs a further round, and after DONE it allows none. -/
theorem test_wait_rounds :
    carriesOut [.wait] [.access 0x01#8 []] pairState = false ∧
      carriesOut [.wait] [.access 0x01#8 [], .encoder, .access 0x01#8 []] pairState = true ∧
      carriesOut [.wait] [.access 0x01#8 [], .access 0x01#8 []] doneA = false := by decide
/-- R84: at DONE with a reset assertion to come the run has ended, and OUT is observed before it. -/
theorem test_run_ended :
    State.runEnded { doneA with pending := [.reset, .encoder] } = true ∧ pairState.runEnded = false ∧
      (observeRun 3 { doneA with pending := [.reset] }).map State.output = some [-1, -3] := by decide

/-! ### Witnesses: for each statement with hypotheses, states and operands that meet them, clause by clause -/

/-- Scenario A's IN with one place left. -/
def roomForOne : State := { withInput inputA with cfg := ⟨some 5⟩ }

/-- Scenario A's IN, full. -/
def fullInput : State := { withInput inputA with cfg := ⟨some 4⟩ }

/-- Three records' worth of kinds at DONE of an 8B6T frame of one byte with a flip. -/
def doneB : State := { byteState2 with run := .done, input := chars242 }

/-- Registers at the ends of their 32-bit views. -/
def extremes : State :=
  { State.reset with symIdx := 4294967295, prevLevel := -2147483648, runningSum := 2147483647 }

theorem witness_ResetAndClearGiveResetState : State.reset.busy = false ∧ byteState2.busy = true := by decide

theorem witness_not_busy_states :
    State.reset.busy = false ∧ doneA.busy = false ∧ errorState.busy = false ∧ (withInput inputA).busy = false := by
  decide

theorem witness_NopChangesNothing : doneA.busy = false := by decide
theorem witness_EncodeStartsFreshFrame : doneA.busy = false := by decide
theorem witness_ClearAppliesReset : errorState.busy = false := by decide

theorem witness_WriteCommandIssuesItsCommand :
    pairState.busy = true ∧ doneA.busy = false ∧
      (3#32 ≠ 0x00000000#32 ∧ 3#32 ≠ 0x00000001#32 ∧ 3#32 ≠ 0x00000005#32 ∧ 3#32 ≠ 0x00000002#32) := by decide

theorem witness_IllegalCommandKeepsResults :
    doneA.busy = false ∧ (0xFFFFFFFF#32 ≠ 0x00000000#32 ∧ 0xFFFFFFFF#32 ≠ 0x00000001#32 ∧
      0xFFFFFFFF#32 ≠ 0x00000005#32 ∧ 0xFFFFFFFF#32 ≠ 0x00000002#32) := by decide

theorem witness_CommandDecoderIsTotal :
    4#32 ≠ 0x00000000#32 ∧ 4#32 ≠ 0x00000001#32 ∧ 4#32 ≠ 0x00000005#32 ∧ 4#32 ≠ 0x00000002#32 := by decide

theorem witness_WriteInData_refused :
    pairState.busy = true ∧ fullInput.busy = false ∧ fullInput.cfg.maxFrameChars = some 4 ∧
      fullInput.input.length = (4 : Fin 2863311529).val := by decide
theorem witness_WriteInData_full : ∃ m, fullInput.cfg.maxFrameChars = some m ∧ fullInput.input.length = m.val :=
  ⟨4, by decide, by decide⟩
theorem witness_WriteInData_room :
    roomForOne.busy = false ∧ ∀ m, roomForOne.cfg.maxFrameChars = some m → roomForOne.input.length ≠ m.val :=
  ⟨by decide, fun m h => by cases h; decide⟩
theorem witness_WriteInData_unbounded :
    State.reset.busy = false ∧ ∀ m, State.reset.cfg.maxFrameChars = some m → State.reset.input.length ≠ m.val :=
  ⟨by decide, fun m h => by cases h⟩

/-- Every side of StatusReadShowsItsFields' equivalences is met by some state. -/
theorem witness_StatusReadShowsItsFields :
    State.reset.run = .idle ∧ pairState.busy = true ∧ doneA.run = .done ∧ errorState.run = .error ∧
      byteState.scheme = .eightB6T ∧ State.reset.errCode = .none ∧ errorState.errCode = .invalidCharacter := by decide

theorem witness_RegisterReads :
    extremes.busy = false ∧ extremes.input.length < 2 ^ 32 ∧ extremes.output.length < 2 ^ 32 ∧
      extremes.trace.length < 2 ^ 32 ∧ extremes.symIdx < 2 ^ 32 ∧ -2 ^ 31 ≤ extremes.prevLevel ∧
      extremes.prevLevel < 2 ^ 31 ∧ -2 ^ 31 ≤ extremes.runningSum ∧ extremes.runningSum < 2 ^ 31 ∧
      pairState.busy = true := by decide

/-- The last index below the length and the first at it. -/
theorem witness_ReadIn :
    doneA.busy = false ∧ doneA.input[(3#32).toNat]? = some 0x31#8 ∧ doneA.input.length ≤ (4#32).toNat ∧
      pairState.busy = true := by decide
theorem witness_ReadOut :
    doneA.busy = false ∧ doneA.output[(1#32).toNat]? = some (-3) ∧ (-2 ^ 31 : Int) ≤ -3 ∧ (-3 : Int) < 2 ^ 31 ∧
      doneA.output.length ≤ (2#32).toNat ∧ pairState.busy = true := by decide
theorem witness_ReadTrace_preliminary :
    doneA.busy = false ∧ (doneA.trace[(0#32).toNat]?).any (fun r =>
      decide (r.kind = .inputAnalysis ∧ r.index < 2 ^ 32 ∧ 0 ≤ r.p0 ∧ r.p0 < 2 ^ 32 ∧ 0 ≤ r.p1 ∧ r.p1 < 2 ^ 32 ∧
        r.snapLen < 2 ^ 32)) = true := by decide
theorem witness_ReadTrace_other :
    doneB.busy = false ∧ (doneB.trace[(3#32).toNat]?).any (fun r =>
      decide (r.kind ≠ .inputAnalysis ∧ r.kind ≠ .grouping ∧ -2 ^ 31 ≤ r.p0 ∧ r.p0 < 2 ^ 31 ∧ -2 ^ 31 ≤ r.p1 ∧
        r.p1 < 2 ^ 31 ∧ -2 ^ 31 ≤ r.p2 ∧ r.p2 < 2 ^ 31 ∧ -2 ^ 31 ≤ r.balSum ∧ r.balSum < 2 ^ 31)) = true := by decide
theorem witness_ReadTrace_refused :
    13 < (14#32).toNat ∧ doneA.trace.length ≤ (4#32).toNat ∧ pairState.busy = true := by decide

theorem witness_BusyWindow :
    byteState2.busy = true ∧ (0x02#8 ≠ 0x01#8 ∨ ([] : List Word) ≠ []) ∧ (0x01#8 ≠ 0x01#8 ∨ [0#32] ≠ []) := by decide

theorem witness_ReadsAreIdempotent_status : isRead .rdStatus = true ∧ ∃ t, exec .rdStatus pairState = .next t :=
  ⟨rfl, _, rfl⟩
theorem witness_ReadsAreIdempotent_trace : isRead (.rdTr 3#32 13#32) = true ∧ ∃ t, exec (.rdTr 3#32 13#32) doneA = .next t :=
  ⟨rfl, _, rfl⟩

theorem witness_EmptyFrame :
    (validating .twoB1Q []).run = .busy .validate ∧ (validating .twoB1Q []).input = [] ∧
      (validating .eightB6T []).run = .busy .validate ∧ (validating .eightB6T []).input = [] := by decide

theorem witness_ValidFrame_2b1q :
    (validating .twoB1Q inputA).run = .busy .validate ∧ (validating .twoB1Q inputA).scheme = .twoB1Q ∧
      inputA ≠ [] ∧ (∀ c ∈ inputA, c = 0x30#8 ∨ c = 0x31#8) ∧ inputA.length % 2 = 0 := by decide
theorem witness_ValidFrame_8b6t :
    (validating .eightB6T chars242).run = .busy .validate ∧ (validating .eightB6T chars242).scheme = .eightB6T ∧
      chars242 ≠ [] ∧ (∀ c ∈ chars242, c = 0x30#8 ∨ c = 0x31#8) ∧ chars242.length % 8 = 0 := by decide

theorem witness_FirstInvalid_at_0 :
    ∃ c, (validating .twoB1Q [0x2F#8]).input[0]? = some c ∧ c ≠ 0x30#8 ∧ c ≠ 0x31#8 := ⟨0x2F#8, by decide⟩
theorem witness_FirstInvalid_at_2 :
    (validating .twoB1Q errorState.input).run = .busy .validate ∧
      (∃ c, errorState.input[2]? = some c ∧ c ≠ 0x30#8 ∧ c ≠ 0x31#8) ∧
      ∀ j < 2, errorState.input[j]? = some 0x30#8 ∨ errorState.input[j]? = some 0x31#8 :=
  ⟨by decide, ⟨0x78#8, by decide⟩, by decide⟩

theorem witness_WrongLength_2b1q :
    (validating .twoB1Q [0x30#8]).run = .busy .validate ∧ (∀ c ∈ [0x30#8], c = 0x30#8 ∨ c = 0x31#8) ∧
      (validating .twoB1Q [0x30#8]).scheme = .twoB1Q ∧ (validating .twoB1Q [0x30#8]).input.length % 2 ≠ 0 := by decide
theorem witness_WrongLength_8b6t :
    (validating .eightB6T (chars242 ++ [0x30#8])).run = .busy .validate ∧
      (∀ c ∈ (chars242 ++ [0x30#8]), c = 0x30#8 ∨ c = 0x31#8) ∧
      (validating .eightB6T (chars242 ++ [0x30#8])).input.length % 8 ≠ 0 := by decide

/-- A pair step that is not the frame's last, and the last. -/
theorem witness_pair_steps :
    (atFirstSymbol .twoB1Q inputA).run = .busy .symbols ∧ (atFirstSymbol .twoB1Q inputA).scheme = .twoB1Q ∧
      (atFirstSymbol .twoB1Q inputA).symIdx < (atFirstSymbol .twoB1Q inputA).input.length / 2 ∧
      pairState.run = .busy .symbols ∧ pairState.scheme = .twoB1Q ∧ pairState.symIdx < pairState.input.length / 2 := by
  decide

/-- A byte step that is not the frame's last, and the last. -/
theorem witness_byte_steps :
    byteState.run = .busy .symbols ∧ byteState.scheme = .eightB6T ∧ byteState.symIdx < byteState.input.length / 8 ∧
      byteState2.run = .busy .symbols ∧ byteState2.scheme = .eightB6T ∧
      byteState2.symIdx < byteState2.input.length / 8 := by decide

/-- R115's two cases: 242 has sum 4, 0 has sum −6. -/
theorem witness_CurrentSum : 0 < (decompose 242).sum ∧ (decompose 0).sum ≤ 0 := by decide

/-- R116's cases: 242 has a negative current sum and 26 a zero one; the previous sum is −6 in byteState2 and 0 in
byteState. -/
theorem witness_FinalSum :
    ((correctPositive 0 (decompose 242).sum (startByte 0 242 0)).code.sum < 0) ∧
      (∃ d : Nat, d < 256 ∧ (correctPositive 0 (decompose d).sum (startByte 0 d 0)).code.sum = 0) ∧
      byteState2.prevCode.sum < 0 ∧ 0 ≤ byteState.prevCode.sum := by
  refine ⟨by decide, ⟨26, by decide⟩, by decide, by decide⟩

theorem witness_Decompose : (5 : Nat) < 6 ∧ (255 : Nat) < 256 ∧ decompose 7 = decompose 7 := by decide
theorem witness_CodePacking : (5 : Nat) < 6 ∧ Code.unpack 0xD55#12 = some ⟨.pos, .pos, .pos, .pos, .pos, .neg⟩ := by
  decide

theorem witness_DecodeInvertsEncode : WellFormed (.rdTr 0xFFFFFFFF#32 13#32) = true ∧ WellFormed (.byte 255#8) = true := by
  decide
theorem witness_EncodeInvertsDecode : decode (.access 0x60#8 [0#32, 13#32]) = .ok (.rdTr 0#32 13#32) := by decide
theorem witness_HostKeys :
    (13#32).toNat ≤ 13 ∧ State.reset.busy = false ∧
      0x03#8 ∉ [0x80#8, 0x83#8, 0x01#8, 0x02#8, 0x04#8, 0x05#8, 0x06#8, 0x07#8, 0x08#8, 0x09#8, 0x0A#8, 0x0B#8,
        0x20#8, 0x40#8, 0x60#8] := by decide

theorem witness_HostKeys_fields :
    (∃ ops i, decode (.access 0x0B#8 ops) = .ok i) ∧ keyDir 0x0B#8 = false ∧ keyRegno 0x0B#8 = 11#5 :=
  ⟨⟨[], _, rfl⟩, by decide⟩
theorem witness_RegisterReads_no_instruction : 0x0C#8 ≤ (0x0C#8 : Byte) ∧ (0x0C#8 : Byte) ≤ 0x1F#8 := by decide
theorem witness_SymbolsDecode :
    0x32#8 ≠ 0x30#8 ∧ 0x32#8 ≠ 0x31#8 ∧
      ∃ c ∈ [0x30#8, 0x30#8, 0x30#8, 0x30#8, 0x30#8, 0x30#8, 0x30#8, 0x78#8], c ≠ 0x30#8 ∧ c ≠ 0x31#8 := by decide

theorem witness_StepRunsTheDecodedHostItem :
    decode (.cmd 1#32) = .ok .encode2b1q ∧ decode (.access 0x20#8 [0#32]) = .ok (.rdIn 0#32) := by decide
theorem witness_HostLines :
    HostOp.access 0x83#8 [0x30#32] ∈ (HostLine.pushs [0x30#8]).expand ∧ (13#32).toNat ≤ 13 ∧ 13 < (14#32).toNat := by
  decide
theorem witness_HostPrograms_carried_out :
    ∃ t, carryOut [.access 0x80#8 [1#32], .wait] [.access 0x80#8 [1#32], .encoder, .access 0x01#8 []] State.reset =
      some ([], t) := ⟨_, rfl⟩
theorem witness_HostPrograms_left_over :
    ∃ t, carryOut [.wait] [.access 0x01#8 []] pairState = some ([.wait], t) := ⟨_, rfl⟩
theorem witness_HostPrograms_steps :
    (∃ t, step { doneA with pending := [.access 0x01#8 [], .encoder] } = .next t) ∧
      (∃ t, step { pairState with pending := [.encoder] } = .next t) ∧
      (∃ t, step { pairState with pending := [.reset] } = .next t) ∧
      (HostOp.access 0x80#8 [1#32]).event ≠ .access 0x83#8 [1#32] :=
  ⟨⟨_, rfl⟩, ⟨_, rfl⟩, ⟨_, rfl⟩, by decide⟩
theorem witness_HostPrograms_end :
    State.runEnded { doneA with pending := [.encoder, .reset] } = true ∧ pairState.runEnded = false ∧
      ∃ t, step pairState = .next t := ⟨by decide, by decide, _, rfl⟩
theorem witness_StepNotEnabled :
    (validating .twoB1Q inputA).run ≠ .busy .symbols ∧ pairState.run ≠ .busy .validate ∧
      byteState.scheme = .eightB6T ∧ pairState.scheme = .twoB1Q ∧
      ({ pairState with symIdx := 2 } : State).input.length / 2 ≤ 2 ∧
      ({ byteState with symIdx := 2 } : State).input.length / 8 ≤ 2 := by decide
theorem witness_StepRunsTheSymbol_validate : (validating .twoB1Q inputA).run = .busy .validate := by decide
theorem witness_StepRunsTheSymbol_pair :
    pairState.run = .busy .symbols ∧ pairState.scheme = .twoB1Q ∧
      pairState.input.drop (2 * pairState.symIdx) = 0x30#8 :: 0x31#8 :: [] ∧
      decode (.sym2 0x30#8 0x31#8) = .ok .pair01 := by decide
theorem witness_StepRunsTheSymbol_byte :
    byteState2.run = .busy .symbols ∧ byteState2.scheme = .eightB6T ∧
      byteState2.input.drop (8 * byteState2.symIdx) =
        0x31#8 :: 0x31#8 :: 0x31#8 :: 0x31#8 :: 0x30#8 :: 0x30#8 :: 0x31#8 :: 0x30#8 :: [] ∧
      decode (.sym8 0x31#8 0x31#8 0x31#8 0x31#8 0x30#8 0x30#8 0x31#8 0x30#8) = .ok (.byte 242#8) := by decide
theorem witness_EncoderHasNoStep : State.reset.busy = false ∧ doneA.busy = false ∧ errorState.busy = false := by decide

/-! States of the invariant, and steps from them. -/

theorem witness_Inv_pairState : pairState.Inv := by
  constructor <;> first
    | decide
    | exact fun h => absurd h (by decide)
    | exact fun _ => by constructor <;> decide

theorem witness_Inv_doneA : doneA.Inv := by
  constructor <;> first
    | decide
    | exact fun h => absurd h (by decide)
    | exact fun _ => by constructor <;> decide

theorem witness_Inv_byteState2 : byteState2.Inv := by
  constructor <;> first
    | decide
    | exact fun h => absurd h (by decide)
    | exact fun _ => by constructor <;> decide

/-- An 8B6T frame at DONE in a block of finite capacity. -/
theorem witness_Inv_finite : ({ doneB with cfg := ⟨some 8⟩ } : State).Inv := by
  constructor <;> first
    | decide
    | exact fun h => absurd h (by decide)
    | exact fun _ => by constructor <;> decide

theorem witness_NeutralIsOnlyTheFirstPair :
    pairState.run = .busy .symbols ∧ pairState.scheme = .twoB1Q ∧ ∃ t b1 b0, exec (pairOf b1 b0) pairState = .next t :=
  ⟨rfl, rfl, _, false, true, rfl⟩
theorem witness_StepKeepsInvariant : ∃ t, step pairState = .next t := ⟨_, rfl⟩
theorem witness_EncoderTurn : byteState2.busy = true := by decide
theorem witness_Reachable : Reachable { State.resetWith Config.unbounded with pending := [.command 1#32] } :=
  .start _ _
theorem witness_FrameRun :
    (withInput inputA).busy = false ∧ (withInput inputA).pending = [] ∧
      (∃ r, encodeFrame (withInput inputA).input .twoB1Q = .ok r) ∧
      encodeFrame errorState.input .twoB1Q = .error (.invalidCharacter, 2) ∧ (2 : Nat) < 2 ^ 32 :=
  ⟨by decide, by decide, ⟨_, rfl⟩, rfl, by decide⟩
theorem witness_FrameResults :
    (∃ r, encodeFrame inputA .twoB1Q = .ok r) ∧ (∃ r, encodeFrame [] .twoB1Q = .ok r) ∧
      (∃ r, encodeFrame chars242 .eightB6T = .ok r) ∧ ∃ r, encodeFrame [] .eightB6T = .ok r :=
  ⟨⟨_, rfl⟩, ⟨_, rfl⟩, ⟨_, rfl⟩, _, rfl⟩
/-- A STATUS read between two encoder steps. -/
theorem witness_StatusPolls :
    (∀ e ∈ [Event.encoder, .access 0x01#8 [], .encoder], e = .encoder ∨ e = .access 0x01#8 []) ∧
      ∃ t : State, Sys2Proof.core.run 3
        { atFirstSymbol .twoB1Q inputA with pending := [.encoder, .access 0x01#8 [], .encoder] } = .next t :=
  ⟨by decide, _, rfl⟩
theorem witness_FramesAreIndependent :
    doneA.busy = false ∧ (withInput inputA).busy = false ∧ doneA.pending = [] ∧ (withInput inputA).pending = [] ∧
      doneA.input = (withInput inputA).input := by decide
theorem witness_AppendOnly :
    byteState2.busy = true ∧ (∀ rest, byteState2.pending ≠ .reset :: rest) ∧ ∃ t, step byteState2 = .next t :=
  ⟨by decide, (fun _ => by simp [byteState2, byteState, atFirstSymbol, withInput, State.reset, State.resetWith]), _, rfl⟩
theorem witness_AppendOnly_not_busy :
    doneA.busy = false ∧ (∃ t, step { doneA with pending := [.access 0x83#8 [0x31#32]] } = .next t) ∧
      (∃ t, step { doneA with pending := [.command 1#32] } = .next t) ∧
      ∃ t, step { doneA with pending := [.access 0x80#8 [2#32]] } = .next t :=
  ⟨rfl, ⟨_, rfl⟩, ⟨_, rfl⟩, _, rfl⟩
theorem witness_InputChanges :
    (∃ t, step { withInput inputA with pending := [.access 0x83#8 [0x31#32]] } = .next t) ∧
      (∃ t, step { doneA with pending := [.command 2#32] } = .next t) ∧
      ∃ t, step { pairState with pending := [.reset] } = .next t :=
  ⟨⟨_, rfl⟩, ⟨_, rfl⟩, _, rfl⟩
theorem witness_SymbolSteps :
    byteState.run = .busy .symbols ∧ byteState.pending = [] ∧ (∃ t, step byteState = .next t) ∧
      ∃ t, step { pairState with pending := [.encoder] } = .next t :=
  ⟨rfl, rfl, ⟨_, rfl⟩, _, rfl⟩
theorem witness_ErrorIsLeft :
    errorState.run = .error ∧ (∃ t, step { errorState with pending := [.access 0x01#8 []] } = .next t) ∧
      (∃ t, step { errorState with pending := [.command 3#32] } = .next t) ∧
      (∃ t, step { errorState with pending := [.command 5#32] } = .next t) ∧
      ∃ t, step { errorState with pending := [.reset] } = .next t :=
  ⟨rfl, ⟨_, rfl⟩, ⟨_, rfl⟩, ⟨_, rfl⟩, _, rfl⟩
theorem witness_BusyEnds :
    pairState.busy = true ∧ (∃ t, step pairState = .next t) ∧
      (∃ t, step (validating .twoB1Q [0x30#8]) = .next t) ∧ ∃ t, step { pairState with pending := [.reset] } = .next t :=
  ⟨rfl, ⟨_, rfl⟩, ⟨_, rfl⟩, _, rfl⟩
/-- The records of a byte step include one with a data snapshot. -/
theorem witness_Snapshots :
    nextHas (step byteState2) (fun t => (t.trace.drop byteState2.trace.length).any (fun r => r.hasData)) = true := by
  decide
theorem witness_RunningSum : byteState2.scheme = .eightB6T := by decide
theorem witness_Views :
    ({ doneB with cfg := ⟨some 8⟩ } : State).cfg.maxFrameChars = some 8 ∧
      ({ doneB with cfg := ⟨some 8⟩ } : State).busy = false := by decide
theorem witness_CapacityNeverChanges :
    ∃ t, step { roomForOne with pending := [.access 0x83#8 [0x30#32]] } = .next t := ⟨_, rfl⟩

end Sys2Proof.Tests
end

section
/-! PROOFS, 00_scope.md. No step writes the capacity (R6), and a finite capacity keeps the counts and the running sum
of a state of the invariant within their 32-bit views (R7). -/

namespace Sys2Proof.Machine

/-! ### The capacity -/

@[simp] theorem admitFrame_cfg (v : Verdict) (s : State) : (admitFrame v s).cfg = s.cfg := by
  unfold admitFrame
  split
  · rfl
  · split <;> rfl

/-- No effect writes the capacity. -/
theorem effect_cfg {s t : State} (e : Effect s t) : t.cfg = s.cfg := by
  cases e with
  | validated h => exact admitFrame_cfg _ s
  | level p l h hl => rw [emitLevel_eq]
  | byte d h => rw [emitByte_eq]
  | nothing h => rfl
  | frame sch h => rfl
  | clear h => rfl
  | illegal c h hc => rfl
  | push c h room => rfl
  | reply w => rfl

/-- Settles O60: a step is the reset input or one effect, and neither writes the capacity. -/
theorem capacityNeverChanges : Obligations.CapacityNeverChanges := by
  unfold Obligations.CapacityNeverChanges
  intro s t h
  obtain ⟨rest, ⟨rfl, -⟩ | e⟩ := step_effect h
  · rfl
  · exact (effect_cfg e).trans rfl

/-! ### Register reads -/

/-- 40_host_interface.md R75, with the whole frame. -/
theorem answer_readRegister {s : State} (w : Word) (h : s.busy = false) :
    answer (readRegister w s) s = .next { s with replies := s.replies ++ [w] } := by
  rw [readRegister_of_not_busy w h]; rfl

/-! ### R7's arithmetic -/

theorem admits_iff_le {c : Config} {m : Fin 2863311529} (hm : c.maxFrameChars = some m) (n : Nat) :
    c.admits n = true ↔ n ≤ m.val := by
  simp [Config.admits, hm]

/-- Every value of OUT in an 8B6T frame is a trit, so the running sum is no larger than OUT_LEN. -/
theorem ByteCarry.runningSum_le_output_length {s : State} (carry : ByteCarry s) :
    -(s.output.length : Int) ≤ s.runningSum ∧ s.runningSum ≤ s.output.length := by
  have lower := s.output.card_nsmul_le_sum (-1) fun v hv => by have := carry.trits v hv; omega
  have upper := s.output.sum_le_card_nsmul 1 fun v hv => by have := carry.trits v hv; omega
  simp only [nsmul_eq_mul] at lower upper
  rw [carry.runningSum]
  omega

namespace State.Inv

variable {s : State} {m : Fin 2863311529} (inv : s.Inv) (hm : s.cfg.maxFrameChars = some m)

include inv hm

theorem input_length_lt : s.input.length < 2863311529 :=
  Nat.lt_of_le_of_lt ((admits_iff_le hm _).mp inv.capacity) m.isLt

/-- One level for two characters, six trits for eight: the largest capacity is the largest that keeps the trits of a
frame fewer than 2³¹. -/
theorem output_length_lt : s.output.length < 2 ^ 31 := by
  have chars := inv.input_length_lt hm
  have values := inv.outLen
  have read := inv.symbolsRead
  cases hs : s.scheme <;> simp only [hs, valuesPerSymbol, symbolWidth] at values read <;> omega

/-- The two preliminary records, and at most one for two characters or four for eight; outside BUSY there is no record
before the first symbol. -/
theorem trace_length_lt (hb : s.busy = false) : s.trace.length < 2 ^ 32 := by
  have chars := inv.input_length_lt hm
  have read := inv.symbolsRead
  rcases Nat.eq_zero_or_pos s.symIdx with h0 | hpos
  · simp [inv.noTrace h0 ((busy_eq_false_iff s).mp hb _)]
  · cases hs : s.scheme with
    | twoB1Q =>
      have records := (inv.pairCarry hs).traceLen hpos
      simp only [hs, symbolWidth] at read
      omega
    | eightB6T =>
      have records := (inv.byteCarry hs).traceLen hpos
      simp only [hs, symbolWidth] at read
      omega

theorem runningSum_bounds : -2 ^ 31 ≤ s.runningSum ∧ s.runningSum < 2 ^ 31 := by
  have values := inv.output_length_lt hm
  cases hs : s.scheme with
  | twoB1Q => simp [(inv.pairCarry hs).runningSum]
  | eightB6T =>
    have sum := (inv.byteCarry hs).runningSum_le_output_length
    omega

end State.Inv

/-- Settles O59: the capacity bounds IN_LEN, the invariant bounds OUT_LEN, TRACE_LEN and RUNNING_SUM by it, and a view
of an integer that fits is exact. -/
theorem viewsAreExactForFiniteCapacity : Obligations.ViewsAreExactForFiniteCapacity := by
  unfold Obligations.ViewsAreExactForFiniteCapacity
  intro s m inv hm hb
  have input := inv.input_length_lt hm
  have output := inv.output_length_lt hm
  have trace := inv.trace_length_lt hm hb
  obtain ⟨lo, hi⟩ := inv.runningSum_bounds hm
  exact ⟨⟨_, answer_readRegister _ hb, twos32_toInt _ lo hi⟩,
    ⟨_, answer_readRegister _ hb, zext32_toNat _ (by omega)⟩,
    ⟨_, answer_readRegister _ hb, zext32_toNat _ (by omega)⟩,
    ⟨_, answer_readRegister _ hb, zext32_toNat _ trace⟩⟩

end Sys2Proof.Machine
end

section
/-! PROOFS, 10_state.md. The values after reset (R18), the symbol the encoder's turn runs (R25, R33), the invariant
after reset and after every step (R36), the lengths of a frame's results (R24), and who writes IN (R23). -/

namespace Sys2Proof.Machine

/-! ### Reset values -/

/-- Settles O2: outside BUSY a register read returns the register's view, and after reset every view is of 0. -/
theorem resetRegistersReadZero : Obligations.ResetRegistersReadZero := by
  unfold Obligations.ResetRegistersReadZero
  intro c
  have status : statusWord (State.resetWith c) = 0#32 := by
    rw [statusWord, resetWith_errCode, resetWith_scheme, resetWith_run]; decide
  have prevCode : codeWord (State.resetWith c).prevCode.pack = 0#32 := by
    rw [resetWith_prevCode]; decide
  have register : ∀ w, answer (readRegister w (State.resetWith c)) (State.resetWith c) =
      .next { State.resetWith c with replies := (State.resetWith c).replies ++ [w] } :=
    fun w => answer_readRegister w rfl
  simp only [List.forall_mem_cons]
  exact ⟨congrArg (fun w => Host.Outcome.next (giveReply w (State.resetWith c))) status, register 0#32, register 0#32,
    register 0#32, register 0#32, register 0#32, register 0#32, register 0#32, prevCode ▸ register _, register 0#32,
    by simp⟩

/-! ### The encoder's turn -/

/-- The encoder's turn runs what its phase fetches. -/
theorem encoderStep_of_fetch {s : State} {phase : Phase} {x : Item} {i : Instr} (hrun : s.run = .busy phase)
    (hfetch : fetchItem phase s = .ok x) (hdecode : decode x = .ok i) : encoderStep s = exec i s := by
  simp [encoderStep, hrun, hfetch, hdecode]

theorem fetchSymbol_twoB1Q {s : State} {c0 c1 : Byte} {tail : List Byte} (hs : s.scheme = .twoB1Q)
    (hin : s.input.drop (2 * s.symIdx) = c0 :: c1 :: tail) : fetchSymbol s = .ok (.sym2 c0 c1) := by
  have chars : inputAtSymbol s = c0 :: c1 :: tail := by rw [inputAtSymbol, hs]; exact hin
  simp [fetchSymbol, hs, chars]

theorem fetchSymbol_eightB6T {s : State} {c0 c1 c2 c3 c4 c5 c6 c7 : Byte} {tail : List Byte}
    (hs : s.scheme = .eightB6T)
    (hin : s.input.drop (8 * s.symIdx) = c0 :: c1 :: c2 :: c3 :: c4 :: c5 :: c6 :: c7 :: tail) :
    fetchSymbol s = .ok (.sym8 c0 c1 c2 c3 c4 c5 c6 c7) := by
  have chars : inputAtSymbol s = c0 :: c1 :: c2 :: c3 :: c4 :: c5 :: c6 :: c7 :: tail := by
    rw [inputAtSymbol, hs]; exact hin
  simp [fetchSymbol, hs, chars]

/-- Settles O42: the encoder's turn, taken as an event or with nothing pending, is `encoderStep`, which runs the item
its phase fetches. -/
theorem stepRunsTheSymbolAtSymIdx : Obligations.StepRunsTheSymbolAtSymIdx := by
  unfold Obligations.StepRunsTheSymbolAtSymIdx
  intro s rest
  refine ⟨fun hrun => ?_, fun c0 c1 tail i hrun hs hin hi => ?_,
    fun c0 c1 c2 c3 c4 c5 c6 c7 tail i hrun hs hin hi => ?_⟩
  · exact ⟨encoderStep_of_fetch hrun rfl rfl, encoderStep_of_fetch hrun rfl rfl⟩
  · exact ⟨encoderStep_of_fetch hrun (fetchSymbol_twoB1Q hs hin) hi,
      encoderStep_of_fetch hrun (fetchSymbol_twoB1Q hs hin) hi⟩
  · exact ⟨encoderStep_of_fetch hrun (fetchSymbol_eightB6T hs hin) hi,
      encoderStep_of_fetch hrun (fetchSymbol_eightB6T hs hin) hi⟩

/-! ### The invariant: states with nothing emitted -/

/-- A frame that has only begun: nothing emitted, no carry and no error (40_host_interface.md R71,
70_reset_and_hazards.md R146). -/
structure FreshFrame (s : State) : Prop where
  emitted : NothingEmitted s
  prevLevel : s.prevLevel = 0
  runningSum : s.runningSum = 0
  prevCode : s.prevCode = Code.zero
  errCode : s.errCode = .none
  errInfo : s.errInfo = 0#32

theorem FreshFrame.pairCarry {s : State} (fresh : FreshFrame s) : PairCarry s where
  runningSum := fresh.runningSum
  prevCode := fresh.prevCode
  levels := by simp [fresh.emitted.output]
  prevLevel := by simp [fresh.emitted.output, fresh.prevLevel]
  traceLen := by simp [fresh.emitted.symIdx]

theorem FreshFrame.byteCarry {s : State} (fresh : FreshFrame s) : ByteCarry s where
  prevLevel := fresh.prevLevel
  runningSum := by simp [fresh.emitted.output, fresh.runningSum]
  trits := by simp [fresh.emitted.output]
  firstCode := fun _ => fresh.prevCode
  lastCode := by simp [fresh.emitted.symIdx]
  traceLen := by simp [fresh.emitted.symIdx]

theorem FreshFrame.inv {s : State} (fresh : FreshFrame s) (capacity : Memory.wf s)
    (hrun : s.run = .idle ∨ s.run = .busy .validate) : s.Inv where
  capacity := capacity
  errorState := by rcases hrun with h | h <;> simp [h, fresh.errCode]
  errorInfo := fun _ => fresh.errInfo
  outLen := by simp [fresh.emitted.output, fresh.emitted.symIdx]
  symbolsRead := by simp [fresh.emitted.symIdx]
  pairCarry := fun _ => fresh.pairCarry
  byteCarry := fun _ => fresh.byteCarry
  traceScheme := by simp [fresh.emitted.trace]
  snapshots := by simp [fresh.emitted.trace]
  noTrace := fun _ _ => fresh.emitted.trace
  idle := fun _ => fresh.emitted
  validating := fun _ => fresh.emitted
  underWay := by rcases hrun with h | h <;> simp [h]
  validationError := fun _ _ => fresh.emitted

/-- The block's state after reset, whatever is still to come and has been received. -/
theorem resetBlock_inv (s : State) : (resetBlock s).Inv :=
  FreshFrame.inv ⟨⟨rfl, rfl, rfl⟩, rfl, rfl, rfl, rfl, rfl⟩ (resetBlock_wf s) (.inl rfl)

theorem startFrame_inv (sch : Scheme) {s : State} (capacity : Memory.wf s) : (startFrame sch s).Inv :=
  FreshFrame.inv ⟨⟨rfl, rfl, rfl⟩, rfl, rfl, rfl, rfl, rfl⟩ capacity (.inr rfl)

/-- Settles O44: the reset values make a fresh frame in IDLE with an empty IN, which every capacity admits. -/
theorem resetSatisfiesInvariant : Obligations.ResetSatisfiesInvariant := by
  unfold Obligations.ResetSatisfiesInvariant
  intro c events
  exact resetBlock_inv { State.resetWith c with pending := events }

/-! ### The invariant: what leaves the frame as it is -/

/-- The invariant speaks of the block alone, not of the model's own lists (logs 1 and 2). -/
theorem State.Inv.with_lists {s : State} (inv : s.Inv) (events : List Event) (words : List Word) :
    ({ s with pending := events, replies := words } : State).Inv :=
  { inv with
    pairCarry := fun h => { inv.pairCarry h with }
    byteCarry := fun h => { inv.byteCarry h with }
    idle := fun h => { inv.idle h with }
    validating := fun h => { inv.validating h with }
    underWay := fun h => { inv.underWay h with }
    validationError := fun h hc => { inv.validationError h hc with } }

theorem raiseIllegalCommand_inv {s : State} (inv : s.Inv) (c : Word) (hb : s.busy = false) :
    (raiseIllegalCommand c s).Inv :=
  { inv with
    errorState := by simp
    errorInfo := nofun
    pairCarry := fun h => { inv.pairCarry h with }
    byteCarry := fun h => { inv.byteCarry h with }
    noTrace := fun h0 _ => inv.noTrace h0 ((busy_eq_false_iff s).mp hb _)
    idle := nofun
    validating := nofun
    underWay := nofun
    validationError := fun _ hc => absurd rfl hc }

theorem appendInput_inv {s : State} (inv : s.Inv) (c : Byte) (hb : s.busy = false)
    (room : s.cfg.isFull s.input.length = false) : (appendInput c s).Inv :=
  { inv with
    capacity := appendInput_wf inv.capacity room
    symbolsRead := inv.symbolsRead.trans (by simp)
    pairCarry := fun h => { inv.pairCarry h with }
    byteCarry := fun h => { inv.byteCarry h with }
    idle := fun h => { inv.idle h with }
    validating := fun h => { inv.validating h with }
    underWay := fun h => absurd h ((busy_eq_false_iff s).mp hb _)
    validationError := fun h hc => { inv.validationError h hc with } }

/-! ### The invariant: VALIDATE -/

theorem firstInvalid_eq_none {cs : List Byte} {k : Nat} (h : firstInvalid cs k = none) :
    ∀ c ∈ cs, c = 0x30#8 ∨ c = 0x31#8 := by
  induction cs generalizing k with
  | nil => simp
  | cons c cs ih =>
    simp only [firstInvalid] at h
    split at h
    · rename_i binary
      have head : c = 0x30#8 ∨ c = 0x31#8 := by simpa [isBinary] using binary
      simpa [head] using ih h
    · cases h

/-- What a frame that VALIDATE admits is like (41_validator.md R87). -/
theorem validateFrame_valid {inp : List Byte} {sch : Scheme} (h : validateFrame inp sch = .valid)
    (nonempty : inp.length ≠ 0) :
    (∀ c ∈ inp, c = 0x30#8 ∨ c = 0x31#8) ∧ inp.length % symbolWidth sch = 0 := by
  rw [validateFrame, if_neg nonempty] at h
  split at h
  · cases h
  · split at h
    · exact ⟨firstInvalid_eq_none ‹_›, ‹_›⟩
    · cases h

theorem validateFrame_failure {inp : List Byte} {sch : Scheme} {kind : ErrCode} {info : Nat}
    (h : validateFrame inp sch = .failure kind info) : kind ≠ .none := by
  unfold validateFrame at h
  split at h
  · cases h
  · split at h
    · cases h; simp
    · split at h
      · cases h
      · cases h; cases sch <;> simp [wrongLength]

/-- A BUSY block has no error code (10_state.md R20). -/
theorem State.Inv.errCode_of_busy {s : State} {phase : Phase} (inv : s.Inv) (hrun : s.run = .busy phase) :
    s.errCode = .none := by
  have := inv.errorState
  simpa [hrun] using this

theorem symbolWidth_pos (sch : Scheme) : 0 < symbolWidth sch := by cases sch <;> decide

theorem raiseValidationFailure_inv {s : State} (inv : s.Inv) (emitted : NothingEmitted s) {kind : ErrCode}
    (hk : kind ≠ .none) (info : Nat) : (raiseValidationFailure kind info s).Inv :=
  { inv with
    errorState := by simpa using hk
    errorInfo := fun h => absurd h hk
    pairCarry := fun h => { inv.pairCarry h with }
    byteCarry := fun h => { inv.byteCarry h with }
    noTrace := fun _ _ => emitted.trace
    idle := nofun
    validating := nofun
    underWay := nofun
    validationError := fun _ _ => { emitted with } }

/-- The empty frame goes from VALIDATE to DONE (41_validator.md R92). -/
theorem emptyFrame_inv {s : State} (inv : s.Inv) (hrun : s.run = .busy .validate) :
    ({ s with run := .done } : State).Inv :=
  { inv with
    errorState := by simpa using inv.errCode_of_busy hrun
    pairCarry := fun h => { inv.pairCarry h with }
    byteCarry := fun h => { inv.byteCarry h with }
    noTrace := fun _ _ => (inv.validating hrun).trace
    idle := nofun
    validating := nofun
    underWay := nofun
    validationError := nofun }

/-- The first symbol of an admitted frame comes after the two preliminary records (41_validator.md R92). -/
theorem admittedFrame_inv {s : State} (inv : s.Inv) (hrun : s.run = .busy .validate) (nonempty : s.input.length ≠ 0)
    (binary : ∀ c ∈ s.input, c = 0x30#8 ∨ c = 0x31#8) (aligned : s.input.length % symbolWidth s.scheme = 0) :
    ({ traceAppend (groupingRecord (symbolCount s))
        (traceAppend (inputAnalysisRecord s.input.length (symbolCount s)) s) with
      run := .busy .symbols } : State).Inv := by
  obtain ⟨hidx, hout, htrace⟩ := inv.validating hrun
  have symbolsLeft : s.symIdx < symbolCount s := by
    rw [hidx]
    exact Nat.div_pos (Nat.le_of_dvd (Nat.pos_of_ne_zero nonempty) (Nat.dvd_of_mod_eq_zero aligned)) (symbolWidth_pos _)
  exact
  { inv with
    errorState := by simpa using inv.errCode_of_busy hrun
    pairCarry := fun h => { inv.pairCarry h with traceLen := by simp [hidx] }
    byteCarry := fun h => { inv.byteCarry h with traceLen := by simp [hidx] }
    traceScheme := by simp [htrace, TraceRecord.stamp]
    snapshots := by simp [htrace, TraceRecord.stamp, inputAnalysisRecord, groupingRecord, blankRecord]
    noTrace := fun _ h => absurd rfl h
    idle := nofun
    validating := nofun
    underWay := fun _ => ⟨binary, aligned, symbolsLeft, fun _ => by simp [htrace]⟩
    validationError := nofun }

theorem admitFrame_inv {s : State} (inv : s.Inv) (hrun : s.run = .busy .validate) :
    (admitFrame (validateFrame s.input s.scheme) s).Inv := by
  cases hv : validateFrame s.input s.scheme with
  | failure kind info => exact raiseValidationFailure_inv inv (inv.validating hrun) (validateFrame_failure hv) info
  | valid =>
    simp only [admitFrame]
    split
    · exact emptyFrame_inv inv hrun
    · rename_i nonempty
      obtain ⟨binary, aligned⟩ := validateFrame_valid hv nonempty
      exact admittedFrame_inv inv hrun nonempty binary aligned

/-! ### The invariant: symbol steps -/

/-- What the two symbol steps share: `vs` appended to OUT, `rs` to TRACE, SYM_IDX advanced, DONE set at the last
symbol (42_pair_encoder_2b1q.md R93, 43_byte_encoder_8b6t.md R104). The carry is each scheme's own. -/
structure SymbolAdvance (vs : List Int) (rs : List TraceRecord) (s t : State) : Prop where
  cfg : t.cfg = s.cfg
  scheme : t.scheme = s.scheme
  errCode : t.errCode = s.errCode
  errInfo : t.errInfo = s.errInfo
  input : t.input = s.input
  symIdx : t.symIdx = s.symIdx + 1
  run : t.run = if s.symIdx + 1 = symbolCount s then .done else s.run
  output : t.output = s.output ++ vs
  trace : t.trace = s.trace ++ rs.map (TraceRecord.stamp s.scheme)

theorem emitLevel_advance (p : Nat) (level : Int) (s : State) :
    SymbolAdvance [level] [pairRecord (s.symIdx + 1) p s.prevLevel level (s.output.length + 1)] s
      (emitLevel p level s) := by
  rw [emitLevel_eq]
  exact ⟨rfl, rfl, rfl, rfl, rfl, rfl, rfl, rfl, rfl⟩

theorem emitByte_advance (d : Nat) (s : State) :
    SymbolAdvance (encodeByte (s.symIdx + 1) d s.runningSum s.prevCode).code.vals
      ((encodeByte (s.symIdx + 1) d s.runningSum s.prevCode).records ++
        [finalRecord (s.symIdx + 1) (encodeByte (s.symIdx + 1) d s.runningSum s.prevCode).code
          (s.output.length + 6) (encodeByte (s.symIdx + 1) d s.runningSum s.prevCode).rs]) s
      (emitByte d s) := by
  rw [emitByte_eq]
  exact ⟨rfl, rfl, rfl, rfl, rfl, rfl, rfl, rfl, by simp⟩

namespace SymbolAdvance

variable {vs : List Int} {rs : List TraceRecord} {s t : State} (adv : SymbolAdvance vs rs s t)

include adv

theorem symbolCount_eq : symbolCount t = symbolCount s := by
  rw [symbolCount, symbolCount, adv.input, adv.scheme]

/-- The block stays BUSY in PHASE SYMBOLS exactly until the last symbol. -/
theorem run_cases (hrun : s.run = .busy .symbols) :
    t.run = .done ∨ (t.run = .busy .symbols ∧ t.symIdx ≠ symbolCount t) := by
  rw [adv.run, adv.symIdx, adv.symbolCount_eq]
  split
  · exact .inl rfl
  · exact .inr ⟨hrun, ‹_›⟩

/-- A symbol step keeps the invariant when its values are as many as the scheme says, its snapshots are within OUT, and
the scheme's carry is right. -/
theorem inv (inv : s.Inv) (hrun : s.run = .busy .symbols) (values : vs.length = valuesPerSymbol s.scheme)
    (snaps : ∀ r ∈ rs, r.hasData = true → r.snapLen ≤ s.output.length + vs.length)
    (pair : t.scheme = .twoB1Q → PairCarry t) (byte : t.scheme = .eightB6T → ByteCarry t) : t.Inv := by
  have frame := inv.underWay hrun
  have runs := adv.run_cases hrun
  have noError := inv.errCode_of_busy hrun
  have advanced : t.symIdx ≠ 0 := by simp [adv.symIdx]
  have read : symbolWidth t.scheme * t.symIdx ≤ t.input.length := by
    rw [adv.scheme, adv.symIdx, adv.input]
    exact (Nat.mul_le_mul_left _ frame.symbolsLeft).trans (Nat.mul_div_le _ _)
  constructor
  case capacity => rw [Memory.wf, adv.cfg, adv.input]; exact inv.capacity
  case errorState => rcases runs with h | ⟨h, -⟩ <;> simp [h, adv.errCode, noError]
  case errorInfo => rw [adv.errCode, adv.errInfo]; exact inv.errorInfo
  case outLen =>
    rw [adv.output, adv.scheme, adv.symIdx, List.length_append, inv.outLen, values, Nat.mul_succ]
  case symbolsRead => exact read
  case pairCarry => exact pair
  case byteCarry => exact byte
  case traceScheme =>
    rw [adv.trace, adv.scheme]
    intro r hr
    rcases List.mem_append.mp hr with old | new
    · exact inv.traceScheme r old
    · obtain ⟨r', -, rfl⟩ := List.mem_map.mp new; rfl
  case snapshots =>
    rw [adv.trace, adv.output, List.length_append]
    intro r hr data
    rcases List.mem_append.mp hr with old | new
    · exact (inv.snapshots r old data).trans (Nat.le_add_right _ _)
    · obtain ⟨r', hr', rfl⟩ := List.mem_map.mp new
      exact snaps r' hr' data
  case noTrace => exact fun h => absurd h advanced
  case idle => rcases runs with h | ⟨h, -⟩ <;> simp [h]
  case validating => rcases runs with h | ⟨h, -⟩ <;> simp [h]
  case validationError => rcases runs with h | ⟨h, -⟩ <;> simp [h]
  case underWay =>
    rcases runs with h | ⟨-, notLast⟩
    · simp [h]
    · refine fun _ => ⟨?_, ?_, ?_, fun h => absurd h advanced⟩
      · rw [adv.input]; exact frame.binary
      · rw [adv.input, adv.scheme]; exact frame.aligned
      · have := frame.symbolsLeft
        rw [adv.symIdx, adv.symbolCount_eq] at notLast ⊢
        omega

end SymbolAdvance

/-- Before each pair of a 2B1Q frame TRACE holds the preliminary records and one for each pair before it. -/
theorem PairCarry.trace_length {s : State} (carry : PairCarry s) (frame : FrameUnderWay s) :
    s.trace.length = 2 + s.symIdx := by
  rcases Nat.eq_zero_or_pos s.symIdx with h0 | hpos
  · rw [h0, frame.preliminary h0]
  · exact carry.traceLen hpos

theorem ByteCarry.trace_length {s : State} (carry : ByteCarry s) (frame : FrameUnderWay s) :
    2 + 2 * s.symIdx ≤ s.trace.length ∧ s.trace.length ≤ 2 + 4 * s.symIdx := by
  rcases Nat.eq_zero_or_pos s.symIdx with h0 | hpos
  · rw [h0, frame.preliminary h0]; simp
  · exact carry.traceLen hpos

theorem emitLevel_pairCarry {p : Nat} {level : Int} {s : State} (carry : PairCarry s) (frame : FrameUnderWay s)
    (hl : level = -3 ∨ level = -1 ∨ level = 1 ∨ level = 3) : PairCarry (emitLevel p level s) := by
  have records := carry.trace_length frame
  rw [emitLevel_eq]
  exact {
    runningSum := carry.runningSum
    prevCode := carry.prevCode
    levels := by
      intro v hv
      rcases List.mem_append.mp hv with old | new
      · exact carry.levels v old
      · exact List.mem_singleton.mp new ▸ hl
    prevLevel := by simp
    traceLen := fun _ => by simp [records, Nat.add_assoc] }

theorem emitLevel_inv {p : Nat} {level : Int} {s : State} (inv : s.Inv) (enabled : symbolEnabled .twoB1Q s = true)
    (hl : level = -3 ∨ level = -1 ∨ level = 1 ∨ level = 3) : (emitLevel p level s).Inv := by
  obtain ⟨hrun, hs, -⟩ := (symbolEnabled_iff _ s).mp enabled
  have adv := emitLevel_advance p level s
  refine adv.inv inv hrun (by rw [hs]; rfl) (by simp [pairRecord])
    (fun _ => emitLevel_pairCarry (inv.pairCarry hs) (inv.underWay hrun) hl) (fun h => ?_)
  rw [adv.scheme, hs] at h
  cases h

/-- Sub-steps 1 to 3 make a decompose record and at most one record for each correction, none with a data snapshot
(43_byte_encoder_8b6t.md R105, R108, R110, 44_trace_recorder.md R129). -/
theorem encodeByte_records (index d : Nat) (rs : Int) (prev : Code) :
    (1 ≤ (encodeByte index d rs prev).records.length ∧ (encodeByte index d rs prev).records.length ≤ 3) ∧
      ∀ r ∈ (encodeByte index d rs prev).records, r.hasData = false := by
  simp only [encodeByte, correctAlternation, correctPositive, startByte]
  split <;> split <;> simp [decomposeRecord, dcBalanceRecord, dcAccumulationRecord, blankRecord]

theorem Code.mem_vals {c : Code} {v : Int} (h : v ∈ c.vals) : v = -1 ∨ v = 0 ∨ v = 1 := by
  obtain ⟨t, -, rfl⟩ := List.mem_map.mp h
  exact t.val_cases

theorem emitByte_byteCarry (d : Nat) {s : State} (carry : ByteCarry s) (frame : FrameUnderWay s) :
    ByteCarry (emitByte d s) := by
  have before := carry.trace_length frame
  have balance := encodeByte_balance (s.symIdx + 1) d s.runningSum s.prevCode
  obtain ⟨records, -⟩ := encodeByte_records (s.symIdx + 1) d s.runningSum s.prevCode
  rw [emitByte_eq]
  exact {
    prevLevel := carry.prevLevel
    runningSum := by simpa [Code.sum, carry.runningSum] using balance
    trits := by
      intro v hv
      rcases List.mem_append.mp hv with old | new
      · exact carry.trits v old
      · exact Code.mem_vals new
    firstCode := nofun
    lastCode := fun _ => by simp
    traceLen := fun _ => by
      simp only [List.length_append, List.length_map, List.length_singleton]
      omega }

theorem emitByte_inv (d : Nat) {s : State} (inv : s.Inv) (enabled : symbolEnabled .eightB6T s = true) :
    (emitByte d s).Inv := by
  obtain ⟨hrun, hs, -⟩ := (symbolEnabled_iff _ s).mp enabled
  obtain ⟨-, noData⟩ := encodeByte_records (s.symIdx + 1) d s.runningSum s.prevCode
  have adv := emitByte_advance d s
  refine adv.inv inv hrun (by rw [hs]; rfl) (fun r hr data => ?_) (fun h => ?_)
    (fun _ => emitByte_byteCarry d (inv.byteCarry hs) (inv.underWay hrun))
  · rcases List.mem_append.mp hr with sub | final
    · simp [noData r sub] at data
    · rw [List.mem_singleton.mp final]; simp [finalRecord]
  · rw [adv.scheme, hs] at h
    cases h

/-! ### The invariant: every step -/

theorem effect_inv {s t : State} (e : Effect s t) (inv : s.Inv) : t.Inv := by
  cases e with
  | nothing hb => exact inv
  | frame sch hb => exact startFrame_inv sch inv.capacity
  | clear hb => exact resetBlock_inv s
  | illegal c hb hc => exact raiseIllegalCommand_inv inv c hb
  | push c hb room => exact appendInput_inv inv c hb room
  | reply w => exact inv.with_lists s.pending (s.replies ++ [w])
  | validated hrun => exact admitFrame_inv inv hrun
  | level p l enabled hl => exact emitLevel_inv inv enabled hl
  | byte d enabled => exact emitByte_inv d.toNat inv enabled

/-- Settles O45: a step is the reset input or one effect, and each leads to a state of the invariant. -/
theorem stepKeepsInvariant : Obligations.StepKeepsInvariant := by
  unfold Obligations.StepKeepsInvariant
  intro s t inv h
  obtain ⟨rest, ⟨rfl, -⟩ | e⟩ := step_effect h
  · exact resetBlock_inv _
  · exact effect_inv e (inv.with_lists rest s.replies)

/-! ### Results of a frame -/

theorem framePairs_length : ∀ inp : List Byte, (framePairs inp).length = inp.length / 2
  | _ :: _ :: cs => by
    simp only [framePairs, List.length_cons, framePairs_length cs]
    omega
  | [] | [_] => by simp [framePairs]

theorem frameBytes_length : ∀ inp : List Byte, (frameBytes inp).length = inp.length / 8
  | _ :: _ :: _ :: _ :: _ :: _ :: _ :: _ :: cs => by
    simp only [frameBytes, List.length_cons, frameBytes_length cs]
    omega
  | [] | [_] | [_, _] | [_, _, _] | [_, _, _, _] | [_, _, _, _, _] | [_, _, _, _, _, _] | [_, _, _, _, _, _, _] => by
    simp [frameBytes]

theorem table2B1Q_cases : ∀ b1 b0 isPos : Bool,
    table2B1Q b1 b0 isPos = -3 ∨ table2B1Q b1 b0 isPos = -1 ∨ table2B1Q b1 b0 isPos = 1 ∨
      table2B1Q b1 b0 isPos = 3 := by decide

/-- One level and one record for each pair (42_pair_encoder_2b1q.md R103). -/
theorem encodePairs_shape (ps : List (Bool × Bool)) (j : Nat) (prev : Int) :
    (encodePairs ps j prev).output.length = ps.length ∧ (encodePairs ps j prev).trace.length = ps.length ∧
      ∀ v ∈ (encodePairs ps j prev).output, v = -3 ∨ v = -1 ∨ v = 1 ∨ v = 3 := by
  induction ps generalizing j prev with
  | nil => simp [encodePairs]
  | cons p ps ih =>
    obtain ⟨b1, b0⟩ := p
    obtain ⟨output, trace, levels⟩ := ih (j + 1) (table2B1Q b1 b0 (isPreviousPositive prev))
    simp only [encodePairs, List.length_cons, output, trace, List.forall_mem_cons]
    exact ⟨trivial, trivial, table2B1Q_cases _ _ _, levels⟩

/-- Six trits and from two to four records for each byte (43_byte_encoder_8b6t.md R119, 44_trace_recorder.md R129). -/
theorem encodeBytes_shape (ds : List Nat) (j : Nat) (rs : Int) (prev : Code) :
    (encodeBytes ds j rs prev).output.length = ds.length * 6 ∧
      (2 * ds.length ≤ (encodeBytes ds j rs prev).trace.length ∧
        (encodeBytes ds j rs prev).trace.length ≤ 4 * ds.length) ∧
      ∀ v ∈ (encodeBytes ds j rs prev).output, v = -1 ∨ v = 0 ∨ v = 1 := by
  induction ds generalizing j rs prev with
  | nil => simp [encodeBytes]
  | cons d ds ih =>
    obtain ⟨records, -⟩ := encodeByte_records (j + 1) d rs prev
    obtain ⟨output, trace, trits⟩ :=
      ih (j + 1) (encodeByte (j + 1) d rs prev).rs (encodeByte (j + 1) d rs prev).code
    simp only [encodeBytes, List.length_append, List.length_cons, List.length_map, List.length_nil, Code.vals_length,
      output, List.forall_mem_append]
    exact ⟨by omega, by omega, fun v hv => Code.mem_vals hv, trits⟩

/-- The empty frame has an empty result, and every other one the preliminary records and its symbols' results. -/
theorem encodeFrame_ok {inp : List Byte} {sch : Scheme} {r : FrameResult} (h : encodeFrame inp sch = .ok r) :
    (inp = [] ∧ r = ⟨[], []⟩) ∨
      (inp ≠ [] ∧ r.output = (encodeSymbols inp sch).output ∧
        r.trace.length = 2 + (encodeSymbols inp sch).trace.length) := by
  unfold encodeFrame at h
  split at h
  · cases h
  · split at h <;> cases h
    · exact .inl ⟨List.length_eq_zero_iff.mp ‹_›, rfl⟩
    · rename_i nonempty
      exact .inr ⟨fun empty => nonempty (empty ▸ rfl), rfl, List.length_append⟩

/-- Settles O49: each symbol's share of the result, summed over the frame's n / w symbols. -/
theorem frameResultsHaveTheirLengths : Obligations.FrameResultsHaveTheirLengths := by
  unfold Obligations.FrameResultsHaveTheirLengths
  intro inp r
  refine ⟨fun h => ?_, fun h => ?_⟩
  · rcases encodeFrame_ok h with ⟨rfl, rfl⟩ | ⟨nonempty, output, records⟩
    · simp
    · obtain ⟨levels, trace, range⟩ := encodePairs_shape (framePairs inp) 0 0
      rw [framePairs_length] at levels trace
      refine ⟨output ▸ levels, output ▸ range, fun _ => ?_, fun h => absurd h nonempty⟩
      rw [records, ← trace]; rfl
  · rcases encodeFrame_ok h with ⟨rfl, rfl⟩ | ⟨nonempty, output, records⟩
    · simp
    · obtain ⟨trits, trace, range⟩ := encodeBytes_shape (frameBytes inp) 0 0 Code.zero
      rw [frameBytes_length] at trits trace
      refine ⟨output ▸ trits, output ▸ range, fun _ => ?_, fun h => absurd h nonempty⟩
      rw [records]
      simp only [encodeSymbols]
      omega

/-! ### Writers of IN -/

@[simp] theorem admitFrame_input (v : Verdict) (s : State) : (admitFrame v s).input = s.input := by
  unfold admitFrame
  split
  · rfl
  · split <;> rfl

/-- While BUSY no effect writes IN: VALIDATE and the symbol steps only read it (20_memory.md R51), and the writers of
IN wait for the frame to end (70_reset_and_hazards.md R151). -/
theorem effect_input_of_busy {s t : State} (e : Effect s t) (hb : s.busy = true) : t.input = s.input := by
  cases e with
  | clear h => simp [h] at hb
  | push c h room => simp [h] at hb
  | validated h => exact admitFrame_input _ s
  | level p l h hl => exact (emitLevel_advance p l s).input
  | byte d h => exact (emitByte_advance d.toNat s).input
  | nothing h => rfl
  | frame sch h => rfl
  | illegal c h hc => rfl
  | reply w => rfl

/-! The encoder's instructions, when they answer a next state. -/

theorem pairStep_next {p : Nat} {l : Int} {s t : State} :
    pairStep p l s = .next t ↔ symbolEnabled .twoB1Q s = true ∧ t = emitLevel p l s := by
  unfold pairStep; split <;> simp [*, eq_comm]

theorem execByte_next {d : Byte} {s t : State} :
    exec (.byte d) s = .next t ↔ symbolEnabled .eightB6T s = true ∧ t = emitByte d.toNat s := by
  simp only [exec, execByte]; split <;> simp [*, eq_comm]

theorem execValidate_next {s t : State} :
    exec .validate s = .next t ↔
      s.run = .busy .validate ∧ t = admitFrame (validateFrame s.input s.scheme) s := by
  simp only [exec, execValidate]; split <;> simp [*, eq_comm]

theorem pairStep_input {p : Nat} {l : Int} {s t : State} (h : pairStep p l s = .next t) : t.input = s.input := by
  obtain ⟨-, rfl⟩ := pairStep_next.mp h
  exact (emitLevel_advance p l s).input

/-! Which items a host instruction decodes from (30_encoding.md R55, R57). -/

theorem encode_of_decodeCommand {c : Word} {k : Command} (h : decodeCommand c = some k) : encode k.instr = .cmd c := by
  unfold decodeCommand at h
  split_ifs at h <;> cases h <;> subst c <;> rfl

theorem encode_of_decodeCmd {c : Word} {i : Instr} (h : decode (.cmd c) = .ok i) : encode i = .cmd c := by
  simp only [decode, decodeCmd] at h
  split at h <;> cases h
  exact encode_of_decodeCommand ‹_›

section Access

variable {h : Byte} {ops : List Word} {i : Instr}

theorem encode_of_noOperand (k : Byte) (j : Instr) (hj : encode j = .access k []) (hk : h = k)
    (hd : noOperand j h ops = .ok i) : encode i = .access h ops := by
  unfold noOperand at hd
  split at hd <;> cases hd
  exact hk ▸ hj

theorem encode_of_oneOperand (k : Byte) (j : Word → Instr) (hj : ∀ a, encode (j a) = .access k [a]) (hk : h = k)
    (hd : oneOperand j h ops = .ok i) : encode i = .access h ops := by
  unfold oneOperand at hd
  split at hd <;> cases hd
  exact hk ▸ hj _

theorem encode_of_traceOperands (hk : h = 0x60#8) (hd : traceOperands h ops = .ok i) :
    encode i = .access h ops := by
  unfold traceOperands at hd
  split at hd
  · split at hd <;> cases hd
    exact hk ▸ rfl
  · cases hd

theorem encode_of_decodeAccess (hd : decode (.access h ops) = .ok i) : encode i = .access h ops := by
  have ite : ∀ (p : Prop) [Decidable p] (a b : Except DecodeError Instr),
      (p → a = .ok i → encode i = .access h ops) → (b = .ok i → encode i = .access h ops) →
      (if p then a else b) = .ok i → encode i = .access h ops := by
    intro p _ a b ha hb heq
    split at heq
    · exact ha ‹_› heq
    · exact hb heq
  revert hd
  show decodeAccess h ops = _ → _
  unfold decodeAccess
  iterate 2 refine ite _ _ _ (encode_of_oneOperand _ _ fun _ => rfl) ?_
  iterate 10 refine ite _ _ _ (encode_of_noOperand _ _ rfl) ?_
  iterate 2 refine ite _ _ _ (encode_of_oneOperand _ _ fun _ => rfl) ?_
  exact ite _ _ _ encode_of_traceOperands nofun

end Access

/-! What an instruction, a host item and a step can do to IN. -/

theorem commandEffect_input {k : Command} (hk : k ≠ .clear) (s : State) : (commandEffect k s).input = s.input := by
  cases k with
  | clear => exact absurd rfl hk
  | nop | encode2b1q | encode8b6t => rfl

theorem command_next {k : Command} {s t : State} :
    unlessBusy s (fun s => .next (commandEffect k s)) = .next t ↔ s.busy = false ∧ t = commandEffect k s := by
  rw [unlessBusy_next, Host.Outcome.next.injEq, eq_comm (a := t)]

/-- WR IN_DATA appends to IN and CLEAR empties it, both outside BUSY; every other instruction keeps it. -/
theorem exec_input {i : Instr} {s t : State} (h : exec i s = .next t) :
    t.input = s.input ∨
    (s.busy = false ∧ ∃ v, encode i = .access 0x83#8 [v] ∧ t.input = s.input ++ [v.lowByte]) ∨
    (s.busy = false ∧ t.input = [] ∧ (encode i = .cmd 2#32 ∨ encode i = .access 0x80#8 [2#32])) := by
  have kept : ∀ k, k ≠ .clear → unlessBusy s (fun s => .next (commandEffect k s)) = .next t →
      t.input = s.input := by
    intro k hk he
    rw [(command_next.mp he).2, commandEffect_input hk]
  have read : ∀ {r}, answer r s = .next t → t.input = s.input := by
    intro r hr
    obtain ⟨w, -, rfl⟩ := answer_next.mp hr
    rfl
  cases i with
  | nop => exact .inl (kept .nop nofun h)
  | encode2b1q => exact .inl (kept .encode2b1q nofun h)
  | encode8b6t => exact .inl (kept .encode8b6t nofun h)
  | clear =>
    obtain ⟨hb, rfl⟩ := command_next (k := .clear).mp h
    exact .inr (.inr ⟨hb, rfl, .inl rfl⟩)
  | wrCmd c =>
    simp only [exec, execWrCmd] at h
    obtain ⟨hb, he⟩ := unlessBusy_next.mp h
    split at he <;> cases he
    · rename_i k hk
      by_cases clear : k = .clear
      · subst clear
        cases Item.cmd.inj (encode_of_decodeCommand hk)
        exact .inr (.inr ⟨hb, rfl, .inr rfl⟩)
      · exact .inl (commandEffect_input clear s)
    · exact .inl rfl
  | wrInData v =>
    simp only [exec, execWrInData] at h
    obtain ⟨hb, he⟩ := unlessBusy_next.mp h
    split at he <;> cases he
    exact .inr (.inl ⟨hb, v, rfl, rfl⟩)
  | rdStatus => cases h; exact .inl rfl
  | rdErrInfo | rdInLen | rdOutLen | rdTraceLen | rdSymIdx | rdPrevLevel | rdRunningSum | rdPrevCode | rdPrevSum =>
    exact .inl (read h)
  | rdIn k | rdOut k => exact .inl (read h)
  | rdTr k f => exact .inl (read h)
  | pair00 | pair01 | pair10 | pair11 => exact .inl (pairStep_input h)
  | byte d =>
    obtain ⟨-, rfl⟩ := execByte_next.mp h
    exact .inl (emitByte_advance d.toNat s).input
  | validate =>
    obtain ⟨-, rfl⟩ := execValidate_next.mp h
    exact .inl (admitFrame_input _ s)

theorem rejectHostItem_input {e : DecodeError} {s t : State} (h : rejectHostItem e s = .next t) :
    t.input = s.input := by
  obtain ⟨-, he⟩ := unlessBusy_next.mp h
  cases e <;> cases he
  rfl

/-- `exec_input` of the item a host access or a command word is. -/
theorem hostStep_input {x : Item} {s t : State} (hx : ∀ i, decode x = .ok i → encode i = x)
    (h : hostStep x s = .next t) :
    t.input = s.input ∨
    (s.busy = false ∧ ∃ v, x = .access 0x83#8 [v] ∧ t.input = s.input ++ [v.lowByte]) ∨
    (s.busy = false ∧ t.input = [] ∧ (x = .cmd 2#32 ∨ x = .access 0x80#8 [2#32])) := by
  unfold hostStep at h
  split at h
  · rename_i i hi
    rw [← hx i hi]
    exact exec_input h
  · exact .inl (rejectHostItem_input h)

/-- Settles O53: the encoder's turn is taken while BUSY and keeps IN, the reset input empties it, and of the host's
items only WR IN_DATA and the two forms of CLEAR write it. -/
theorem inputChangesOnlyByHost : Obligations.InputChangesOnlyByHost := by
  unfold Obligations.InputChangesOnlyByHost
  intro s t h
  have encoder : ∀ {u : State}, encoderStep u = .next t → t.input = u.input := fun hu =>
    effect_input_of_busy (encoderStep_effect hu).2 (encoderStep_effect hu).1
  unfold step at h
  split at h <;> rename_i hp
  · exact .inl (encoder h)
  · exact .inl ((encoder h).trans rfl)
  · cases h
    exact .inr (.inr (.inr ⟨rfl, _, hp⟩))
  · rcases hostStep_input (fun _ => encode_of_decodeCmd) h with
      same | ⟨-, v, hx, -⟩ | ⟨hb, empty, hx | hx⟩
    · exact .inl same
    · cases hx
    · cases hx
      exact .inr (.inr (.inl ⟨hb, empty, _, .inl hp⟩))
    · cases hx
  · rcases hostStep_input (fun _ => encode_of_decodeAccess) h with
      same | ⟨hb, v, hx, appended⟩ | ⟨hb, empty, hx | hx⟩
    · exact .inl same
    · cases hx
      exact .inr (.inl ⟨hb, v, _, hp, appended⟩)
    · cases hx
    · cases hx
      exact .inr (.inr (.inl ⟨hb, empty, _, .inr hp⟩))

end Sys2Proof.Machine
end

section
/-! PROOFS, 20_memory.md. Reads change nothing and repeat their word (R45); OUT and TRACE grow while BUSY, and outside
BUSY stay until ENCODE, CLEAR or the reset input (R40). -/

namespace Sys2Proof.Machine

/-! ### Reads -/

/-- An instruction that answers what `r` reads, where `r` does not see the words the host has received, gives only its
word and reads the same one again. -/
theorem read_idempotent {i : Instr} {s t : State} (r : State → Except Refusal Word)
    (reads : ∀ u, exec i u = answer (r u) u) (unseen : ∀ w u, r (giveReply w u) = r u) (h : exec i s = .next t) :
    ∃ w, t = { s with replies := s.replies ++ [w] } ∧ Returns i s w ∧ Returns i t w := by
  rw [reads] at h
  obtain ⟨w, hw, rfl⟩ := answer_next.mp h
  refine ⟨w, rfl, ?_, ?_⟩
  · rw [Returns, reads, hw]; rfl
  · rw [Returns, reads, unseen, hw]; rfl

/-- Settles O17: every read answers a view of the block, and what the host has received is not part of the block. -/
theorem readsAreIdempotent : Obligations.ReadsAreIdempotent := by
  unfold Obligations.ReadsAreIdempotent
  intro i s t hi h
  cases i with
  | rdStatus => exact read_idempotent (fun u => .ok (statusWord u)) (fun _ => rfl) (fun _ _ => rfl) h
  | rdErrInfo | rdInLen | rdOutLen | rdTraceLen | rdSymIdx | rdPrevLevel | rdRunningSum | rdPrevCode | rdPrevSum =>
    exact read_idempotent (fun u => readRegister _ u) (fun _ => rfl) (fun _ _ => rfl) h
  | rdIn k => exact read_idempotent (readIn k) (fun _ => rfl) (fun _ _ => rfl) h
  | rdOut k => exact read_idempotent (readOut k) (fun _ => rfl) (fun _ _ => rfl) h
  | rdTr k f => exact read_idempotent (readTrace k f) (fun _ => rfl) (fun _ _ => rfl) h
  | nop | encode2b1q | encode8b6t | clear | pair00 | pair01 | pair10 | pair11 | validate => cases hi
  | wrCmd c | wrInData c | byte c => cases hi

/-! ### OUT and TRACE while BUSY -/

@[simp] theorem admitFrame_output (v : Verdict) (s : State) : (admitFrame v s).output = s.output := by
  unfold admitFrame
  split
  · rfl
  · split <;> rfl

/-- VALIDATE only appends to TRACE (41_validator.md R92). -/
theorem admitFrame_trace_prefix (v : Verdict) (s : State) : s.trace <+: (admitFrame v s).trace := by
  unfold admitFrame
  split
  · exact List.prefix_rfl
  · split
    · exact List.prefix_rfl
    · exact (List.prefix_append _ _).trans (List.prefix_append _ _)

theorem SymbolAdvance.results_prefix {vs : List Int} {rs : List TraceRecord} {s t : State}
    (adv : SymbolAdvance vs rs s t) : s.output <+: t.output ∧ s.trace <+: t.trace := by
  rw [adv.output, adv.trace]
  exact ⟨List.prefix_append _ _, List.prefix_append _ _⟩

/-- While BUSY no effect removes an element: those that would wait for the frame to end. -/
theorem effect_results_prefix_of_busy {s t : State} (e : Effect s t) (hb : s.busy = true) :
    s.output <+: t.output ∧ s.trace <+: t.trace := by
  cases e with
  | frame sch h => simp [h] at hb
  | clear h => simp [h] at hb
  | validated h => exact ⟨by simp, admitFrame_trace_prefix _ s⟩
  | level p l h hl => exact (emitLevel_advance p l s).results_prefix
  | byte d h => exact (emitByte_advance d.toNat s).results_prefix
  | nothing h => exact ⟨List.prefix_rfl, List.prefix_rfl⟩
  | illegal c h hc => exact ⟨List.prefix_rfl, List.prefix_rfl⟩
  | push c h room => exact ⟨List.prefix_rfl, List.prefix_rfl⟩
  | reply w => exact ⟨List.prefix_rfl, List.prefix_rfl⟩

/-! ### OUT and TRACE outside BUSY -/

/-- The command words that empty OUT and TRACE are those of every command but NOP (30_encoding.md R55). -/
theorem emptyingWord_iff (c : Word) :
    (c = 1#32 ∨ c = 5#32 ∨ c = 2#32) ↔ ∃ k, k ≠ Command.nop ∧ decodeCommand c = some k := by
  constructor
  · rintro (rfl | rfl | rfl)
    · exact ⟨.encode2b1q, nofun, rfl⟩
    · exact ⟨.encode8b6t, nofun, rfl⟩
    · exact ⟨.clear, nofun, rfl⟩
  · rintro ⟨k, hk, hc⟩
    have encoded := encode_of_decodeCommand hc
    cases k with
    | nop => exact absurd rfl hk
    | encode2b1q => exact .inl (Item.cmd.inj encoded).symm
    | encode8b6t => exact .inr (.inl (Item.cmd.inj encoded).symm)
    | clear => exact .inr (.inr (Item.cmd.inj encoded).symm)

theorem commandEffect_empties {k : Command} (hk : k ≠ .nop) (s : State) :
    (commandEffect k s).output = [] ∧ (commandEffect k s).trace = [] := by
  cases k with
  | nop => exact absurd rfl hk
  | encode2b1q | encode8b6t | clear => exact ⟨rfl, rfl⟩

/-- What WR CMD leaves: its word's command is carried out, or IllegalCommand raised (40_host_interface.md R69). -/
theorem execWrCmd_next {c : Word} {s t : State} (h : exec (.wrCmd c) s = .next t) :
    (∃ k, decodeCommand c = some k ∧ t = commandEffect k s) ∨
      (decodeCommand c = none ∧ t = raiseIllegalCommand c s) := by
  simp only [exec, execWrCmd] at h
  obtain ⟨-, he⟩ := unlessBusy_next.mp h
  split at he <;> cases he
  · exact .inl ⟨_, ‹_›, rfl⟩
  · exact .inr ⟨‹_›, rfl⟩

theorem wrCmd_empties {c : Word} {s t : State} (hc : c = 1#32 ∨ c = 5#32 ∨ c = 2#32)
    (h : exec (.wrCmd c) s = .next t) : t.output = [] ∧ t.trace = [] := by
  obtain ⟨k, hk, decoded⟩ := (emptyingWord_iff c).mp hc
  obtain ⟨k', decoded', rfl⟩ | ⟨illegal, -⟩ := execWrCmd_next h
  · cases decoded.symm.trans decoded'
    exact commandEffect_empties hk s
  · cases decoded.symm.trans illegal

theorem wrCmd_results {c : Word} {s t : State} (h : exec (.wrCmd c) s = .next t) :
    (t.output = s.output ∧ t.trace = s.trace) ∨
      ((c = 1#32 ∨ c = 5#32 ∨ c = 2#32) ∧ t.output = [] ∧ t.trace = []) := by
  obtain ⟨k, decoded, rfl⟩ | ⟨-, rfl⟩ := execWrCmd_next h
  · by_cases hk : k = .nop
    · subst hk
      exact .inl ⟨rfl, rfl⟩
    · exact .inr ⟨(emptyingWord_iff c).mpr ⟨k, hk, decoded⟩, commandEffect_empties hk s⟩
  · exact .inl ⟨rfl, rfl⟩

/-- A command word at CMD by itself acts as WR CMD of it does (log 5). -/
theorem hostStep_cmd (c : Word) (s : State) : hostStep (.cmd c) s = exec (.wrCmd c) s := by
  cases hc : decodeCommand c with
  | none => simp [hostStep, decode, decodeCmd, hc, rejectHostItem, exec, execWrCmd]
  | some k =>
    have direct : exec k.instr s = unlessBusy s fun s => .next (commandEffect k s) := by cases k <;> rfl
    simp only [hostStep, decode, decodeCmd, hc, direct]
    simp [exec, execWrCmd, hc]

/-- A step that takes a command word, in either form (log 5). -/
theorem step_of_commandWord {c : Word} {s : State} {rest : List Event}
    (hp : s.pending = .command c :: rest ∨ s.pending = .access 0x80#8 [c] :: rest) :
    step s = exec (.wrCmd c) { s with pending := rest } := by
  rcases hp with hp | hp
  · rw [← hostStep_cmd, step, hp]
  · rw [step, hp]; rfl

theorem step_of_reset {s : State} {rest : List Event} (hp : s.pending = .reset :: rest) :
    step s = .next (resetBlock { s with pending := rest }) := by
  rw [step, hp]

theorem rejectHostItem_results {e : DecodeError} {s t : State} (h : rejectHostItem e s = .next t) :
    t.output = s.output ∧ t.trace = s.trace := by
  obtain ⟨-, he⟩ := unlessBusy_next.mp h
  cases e <;> cases he
  exact ⟨rfl, rfl⟩

/-- Of the host accesses only WR CMD can touch OUT and TRACE. -/
theorem hostStep_access_results {key : Byte} {ops : List Word} {s t : State}
    (h : hostStep (.access key ops) s = .next t) :
    (t.output = s.output ∧ t.trace = s.trace) ∨
      ∃ c, key = 0x80#8 ∧ ops = [c] ∧ exec (.wrCmd c) s = .next t := by
  have read : ∀ {i}, isRead i = true → exec i s = .next t → t.output = s.output ∧ t.trace = s.trace := by
    intro i hi he
    obtain ⟨w, rfl, -⟩ := readsAreIdempotent i s t hi he
    exact ⟨rfl, rfl⟩
  unfold hostStep at h
  split at h
  · rename_i i hi
    have hx := encode_of_decodeAccess hi
    cases i with
    | wrCmd c => cases hx; exact .inr ⟨c, rfl, rfl, h⟩
    | wrInData v =>
      simp only [exec, execWrInData] at h
      obtain ⟨-, he⟩ := unlessBusy_next.mp h
      split at he <;> cases he
      exact .inl ⟨rfl, rfl⟩
    | rdStatus | rdErrInfo | rdInLen | rdOutLen | rdTraceLen | rdSymIdx | rdPrevLevel | rdRunningSum | rdPrevCode
    | rdPrevSum => exact .inl (read rfl h)
    | rdIn k | rdOut k => exact .inl (read rfl h)
    | rdTr k f => exact .inl (read rfl h)
    | nop | encode2b1q | encode8b6t | clear | pair00 | pair01 | pair10 | pair11 | validate => cases hx
    | byte d => cases hx
  · exact .inl (rejectHostItem_results h)

/-- Settles O52: while BUSY every effect appends; outside BUSY the encoder has no turn, and of the host's items only the
words of ENCODE and CLEAR, in either form, touch the results, which they empty as the reset input does. -/
theorem outAndTraceAreAppendOnly : Obligations.OutAndTraceAreAppendOnly := by
  unfold Obligations.OutAndTraceAreAppendOnly
  intro s t h
  have word : ∀ {c rest}, s.pending = .command c :: rest ∨ s.pending = .access 0x80#8 [c] :: rest →
      exec (.wrCmd c) { s with pending := rest } = .next t := fun hp => step_of_commandWord hp ▸ h
  refine ⟨fun hb notReset => ?_, fun hb => ?_, ?_⟩
  · obtain ⟨rest, ⟨-, hp⟩ | e⟩ := step_effect h
    · exact absurd hp (notReset rest)
    · exact (effect_results_prefix_of_busy e hb :)
  · have noTurn : ∀ {u : State}, u.busy = false → encoderStep u ≠ .next t := fun hu he => by
      simp [(encoderStep_effect he).1] at hu
    unfold step at h
    split at h <;> rename_i hp
    · exact absurd h (noTurn hb)
    · exact absurd h (noTurn hb)
    · cases h
      exact .inr ⟨rfl, rfl, _, .inl hp⟩
    · obtain kept | ⟨hc, output, trace⟩ := wrCmd_results (word (.inl hp))
      · exact .inl kept
      · exact .inr ⟨output, trace, _, .inr ⟨_, hc, .inl hp⟩⟩
    · obtain kept | ⟨c, rfl, rfl, hw⟩ := hostStep_access_results h
      · exact .inl kept
      obtain kept | ⟨hc, output, trace⟩ := wrCmd_results hw
      · exact .inl kept
      · exact .inr ⟨output, trace, _, .inr ⟨_, hc, .inr hp⟩⟩
  · rintro ⟨rest, hp | ⟨c, hc, hp⟩⟩
    · cases (step_of_reset hp).symm.trans h
      exact ⟨rfl, rfl⟩
    · exact wrCmd_empties hc (word hp)

end Sys2Proof.Machine
end

section
/-! PROOFS, 30_encoding.md, the formats. The command words (R54–R56), the access keys (R57), the symbols (R58, R59,
R63), the packing of a code (R60), and the decoder and the encoder as inverses of each other (R68). -/

namespace Sys2Proof.Machine

/-! ### Characters and symbol values -/

theorem bitOf_eq_some_iff {c : Byte} {b : Bool} : bitOf c = some b ↔ c = charOf b := by
  by_cases h0 : c = 0x30#8
  · cases b <;> simp [bitOf, charOf, h0]
  · by_cases h1 : c = 0x31#8
    · cases b <;> simp [bitOf, charOf, h1]
    · cases b <;> simp [bitOf, charOf, h0, h1]

@[simp] theorem bitOf_charOf (b : Bool) : bitOf (charOf b) = some b := bitOf_eq_some_iff.mpr rfl

/-- The last `k` binary digits of `n` as characters, most significant first (30_encoding.md R59). -/
def digitChars (n : Nat) : Nat → List Byte
  | 0 => []
  | k + 1 => charOf (n.testBit k) :: digitChars n k

/-- A quotient by 2ᵏ whose last binary digit is named. -/
theorem div_two_pow_eq_iff {n k a : Nat} {b : Bool} :
    n / 2 ^ k = 2 * a + b.toNat ↔ n.testBit k = b ∧ n / 2 ^ (k + 1) = a := by
  have rest : n / 2 ^ (k + 1) = n / 2 ^ k / 2 := by rw [pow_succ, Nat.div_div_eq_div_mul]
  cases b <;> simp only [rest, Nat.testBit_eq_decide_div_mod_eq, Bool.toNat_false, Bool.toNat_true,
    decide_eq_false_iff_not, decide_eq_true_eq] <;> omega

/-- The characters of a value are its binary digits, below the digits already there. -/
theorem charsValue_eq_some_iff (cs : List Byte) (acc n : Nat) :
    charsValue cs acc = some n ↔ cs = digitChars n cs.length ∧ n / 2 ^ cs.length = acc := by
  induction cs generalizing acc with
  | nil => simp [charsValue, digitChars, eq_comm]
  | cons c cs ih =>
    have first : charsValue (c :: cs) acc = some n ↔
        ∃ b, bitOf c = some b ∧ charsValue cs (2 * acc + b.toNat) = some n := by
      simp only [charsValue]; cases bitOf c <;> simp
    simp only [first, bitOf_eq_some_iff, ih, div_two_pow_eq_iff, List.length_cons, digitChars, List.cons.injEq]
    constructor
    · rintro ⟨b, rfl, digits, rfl, quotient⟩
      exact ⟨⟨rfl, digits⟩, quotient⟩
    · rintro ⟨⟨rfl, digits⟩, quotient⟩
      exact ⟨_, rfl, digits, rfl, quotient⟩

/-- The item of a byte value holds the value's eight binary digits. -/
theorem sym8Of_eq_iff {d c0 c1 c2 c3 c4 c5 c6 c7 : Byte} :
    sym8Of d = .sym8 c0 c1 c2 c3 c4 c5 c6 c7 ↔ [c0, c1, c2, c3, c4, c5, c6, c7] = digitChars d.toNat 8 := by
  simp [sym8Of, digitChars, BitVec.getLsbD, eq_comm]

/-- Eight characters decode to a byte operation exactly when they are its item. -/
theorem decode_sym8_eq_ok_iff {c0 c1 c2 c3 c4 c5 c6 c7 : Byte} {i : Instr} :
    decode (.sym8 c0 c1 c2 c3 c4 c5 c6 c7) = .ok i ↔ ∃ d, i = .byte d ∧ sym8Of d = .sym8 c0 c1 c2 c3 c4 c5 c6 c7 := by
  have value (n : Nat) : charsValue [c0, c1, c2, c3, c4, c5, c6, c7] 0 = some n ↔
      [c0, c1, c2, c3, c4, c5, c6, c7] = digitChars n 8 ∧ n < 256 := by
    rw [charsValue_eq_some_iff]
    exact and_congr_right fun _ => Nat.div_eq_zero_iff.trans (by simp)
  simp only [decode, decodeSym8, sym8Of_eq_iff]
  constructor
  · intro h
    split at h <;> cases h
    rename_i n hn
    obtain ⟨digits, small⟩ := (value n).mp hn
    exact ⟨_, rfl, by rwa [BitVec.toNat_ofNat, Nat.mod_eq_of_lt small]⟩
  · rintro ⟨d, rfl, digits⟩
    rw [(value d.toNat).mpr ⟨digits, d.isLt⟩]
    simp

/-- Two characters decode to a pair operation exactly when they are its item. -/
theorem decode_sym2_eq_ok_iff {c0 c1 : Byte} {i : Instr} :
    decode (.sym2 c0 c1) = .ok i ↔ ∃ b1 b0, i = pairOf b1 b0 ∧ c0 = charOf b1 ∧ c1 = charOf b0 := by
  simp only [← bitOf_eq_some_iff, decode, decodeSym2]
  cases bitOf c0 <;> cases bitOf c1 <;> simp [eq_comm]

theorem encode_pairOf (b1 b0 : Bool) : encode (pairOf b1 b0) = .sym2 (charOf b1) (charOf b0) := by
  cases b1 <;> cases b0 <;> rfl

/-! ### The decoder and the encoder -/

theorem decode_traceRead {f : Word} (k : Word) (hf : f.toNat ≤ 13) :
    decode (.access 0x60#8 [k, f]) = .ok (.rdTr k f) := by
  have admitted : traceFieldOk f = true := decide_eq_true hf
  show traceOperands 0x60#8 [k, f] = _
  simp [traceOperands, admitted]

theorem decode_traceRead_fieldOutOfRange {f : Word} (k : Word) (hf : 13 < f.toNat) :
    decode (.access 0x60#8 [k, f]) = .error (.fieldOutOfRange f) := by
  have refused : traceFieldOk f = false := decide_eq_false (by omega)
  show traceOperands 0x60#8 [k, f] = _
  simp [traceOperands, refused]

/-- Settles O34: every arm of the encoder writes the very item its decoder compares with; a TRACE read needs its field
number, and a byte value comes back from its eight binary digits. -/
theorem decodeInvertsEncode : Obligations.DecodeInvertsEncode := by
  unfold Obligations.DecodeInvertsEncode
  intro i wf
  cases i with
  | rdTr k f => exact decode_traceRead k (of_decide_eq_true wf)
  | byte d => exact decode_sym8_eq_ok_iff.mpr ⟨d, rfl, rfl⟩
  | nop | encode2b1q | encode8b6t | clear => rfl
  | wrCmd v | wrInData v | rdIn v | rdOut v => rfl
  | rdStatus | rdErrInfo | rdInLen | rdOutLen | rdTraceLen | rdSymIdx | rdPrevLevel | rdRunningSum | rdPrevCode
  | rdPrevSum => rfl
  | pair00 | pair01 | pair10 | pair11 | validate => rfl

theorem encode_of_decode {x : Item} {i : Instr} (h : decode x = .ok i) : encode i = x := by
  cases x with
  | cmd c => exact encode_of_decodeCmd h
  | access k ops => exact encode_of_decodeAccess h
  | sym2 c0 c1 =>
    obtain ⟨b1, b0, rfl, rfl, rfl⟩ := decode_sym2_eq_ok_iff.mp h
    exact encode_pairOf b1 b0
  | sym8 c0 c1 c2 c3 c4 c5 c6 c7 =>
    obtain ⟨d, rfl, item⟩ := decode_sym8_eq_ok_iff.mp h
    exact item
  | step => cases h; rfl

/-- Only a TRACE read can be ill formed, and its decoder refuses the field numbers that make it so. -/
theorem wellFormed_of_decode {x : Item} {i : Instr} (h : decode x = .ok i) : WellFormed i = true := by
  cases i with
  | rdTr k f =>
    rw [← encode_of_decode h] at h
    by_contra ill
    have tooLarge : 13 < f.toNat := Nat.lt_of_not_le fun hf => ill (decide_eq_true hf)
    cases (decode_traceRead_fieldOutOfRange k tooLarge).symm.trans h
  | nop | encode2b1q | encode8b6t | clear => rfl
  | wrCmd v | wrInData v | rdIn v | rdOut v | byte v => rfl
  | rdStatus | rdErrInfo | rdInLen | rdOutLen | rdTraceLen | rdSymIdx | rdPrevLevel | rdRunningSum | rdPrevCode
  | rdPrevSum => rfl
  | pair00 | pair01 | pair10 | pair11 | validate => rfl

/-- Settles O35: format by format, what decodes is what the encoder writes. -/
theorem encodeInvertsDecode : Obligations.EncodeInvertsDecode := by
  unfold Obligations.EncodeInvertsDecode
  exact fun x i h => ⟨encode_of_decode h, wellFormed_of_decode h⟩

/-- Settles O38: each item is one the encoder writes for a well-formed instruction. -/
theorem sampleItemsDecode : Obligations.SampleItemsDecode := by
  unfold Obligations.SampleItemsDecode
  exact ⟨decodeInvertsEncode .encode8b6t rfl, decodeInvertsEncode (.wrInData 0x131#32) rfl,
    decodeInvertsEncode (.rdTr 3#32 11#32) rfl, decodeInvertsEncode .pair01 rfl, decodeInvertsEncode (.byte 242#8) rfl,
    decodeInvertsEncode .validate rfl⟩

/-! ### Symbols -/

/-- Settles O37: a character has a bit exactly when it is '0' or '1', and the digits of a byte are added up from the
most significant one. -/
theorem symbolsDecodeMostSignificantFirst : Obligations.SymbolsDecodeMostSignificantFirst := by
  unfold Obligations.SymbolsDecodeMostSignificantFirst
  refine ⟨?_, fun c c' h0 h1 => ?_, ?_⟩
  · rintro b rfl
    refine ⟨fun x1 x0 => decode_sym2_eq_ok_iff.mpr ⟨x1, x0, rfl, rfl, rfl⟩, fun x0 x1 x2 x3 x4 x5 x6 x7 => ?_⟩
    show decode (.sym8 (charOf x0) (charOf x1) (charOf x2) (charOf x3) (charOf x4) (charOf x5) (charOf x6)
      (charOf x7)) = _
    simp only [decode, decodeSym8, charsValue, bitOf_charOf]
    congr 3
    omega
  · have none := bitOf_eq_none h0 h1
    simp [decode, decodeSym2, none]
  · rintro c0 c1 c2 c3 c4 c5 c6 c7 ⟨c, hc, h0, h1⟩
    simp only [decode, decodeSym8, charsValue_eq_none (bitOf_eq_none h0 h1) _ 0 hc]

/-! ### Command words -/

/-- Settles O8: R55's four words are the encoder's, and a word that is none of them names no command. -/
theorem commandDecoderIsTotal : Obligations.CommandDecoderIsTotal := by
  unfold Obligations.CommandDecoderIsTotal
  refine ⟨decodeInvertsEncode .nop rfl, decodeInvertsEncode .encode2b1q rfl, decodeInvertsEncode .encode8b6t rfl,
    decodeInvertsEncode .clear rfl, fun c h0 h1 h5 h2 => ?_⟩
  have noCommand : decodeCommand c = none := (decodeCommand_none_iff c).mpr ⟨h0, h1, h5, h2⟩
  simp only [decode, decodeCmd, noCommand]

theorem decode_cmd_eq_ok_iff {c : Word} :
    (∃ i, decode (.cmd c) = .ok i) ↔ c = 0#32 ∨ c = 1#32 ∨ c = 5#32 ∨ c = 2#32 := by
  obtain ⟨nop, encode2b1q, encode8b6t, clear, illegal⟩ := commandDecoderIsTotal
  constructor
  · rintro ⟨i, hi⟩
    by_contra others
    simp only [not_or] at others
    obtain ⟨h0, h1, h5, h2⟩ := others
    cases (illegal c h0 h1 h5 h2).symm.trans hi
  · rintro (rfl | rfl | rfl | rfl)
    exacts [⟨_, nop⟩, ⟨_, encode2b1q⟩, ⟨_, encode8b6t⟩, ⟨_, clear⟩]

/-- A command word is its three fields (30_encoding.md R54). -/
theorem commandWord_eq_iff {c c' : Word} :
    c = c' ↔ cmdRsv c = cmdRsv c' ∧ cmdScheme c = cmdScheme c' ∧ cmdOp c = cmdOp c' := by
  refine ⟨by rintro rfl; exact ⟨rfl, rfl, rfl⟩, ?_⟩
  rintro ⟨rsv, scheme, op⟩
  refine BitVec.eq_of_getLsbD_eq fun i hi => ?_
  have opBit := congrArg (BitVec.getLsbD · i) op
  have rsvBit := congrArg (BitVec.getLsbD · (i - 3)) rsv
  simp only [cmdOp, cmdRsv, BitVec.getLsbD_extractLsb', Nat.zero_add] at opBit rsvBit
  rcases lt_trichotomy i 2 with low | rfl | high
  · simpa [low] using opBit
  · exact scheme
  · simpa [show 3 + (i - 3) = i by omega, show i - 3 < 29 by omega] using rsvBit

/-- Settles O9: the four words of R55 differ in OP and SCHEME only, and a word is its fields. -/
theorem commandWordsByTheirFields : Obligations.CommandWordsByTheirFields := by
  unfold Obligations.CommandWordsByTheirFields
  intro c
  have nop : c = 0#32 ↔ cmdRsv c = 0#29 ∧ cmdScheme c = false ∧ cmdOp c = 0#2 := commandWord_eq_iff
  have encode2b1q : c = 1#32 ↔ cmdRsv c = 0#29 ∧ cmdScheme c = false ∧ cmdOp c = 1#2 := commandWord_eq_iff
  have encode8b6t : c = 5#32 ↔ cmdRsv c = 0#29 ∧ cmdScheme c = true ∧ cmdOp c = 1#2 := commandWord_eq_iff
  have clear : c = 2#32 ↔ cmdRsv c = 0#29 ∧ cmdScheme c = false ∧ cmdOp c = 2#2 := commandWord_eq_iff
  rw [decode_cmd_eq_ok_iff, nop, encode2b1q, encode8b6t, clear]
  cases cmdScheme c <;> simp [← and_or_left, or_left_comm]

/-! ### Access keys -/

/-- The keys of 30_encoding.md R57, in its order. -/
def admittedKeys : List Byte :=
  [0x80#8, 0x83#8, 0x01#8, 0x02#8, 0x04#8, 0x05#8, 0x06#8, 0x07#8, 0x08#8, 0x09#8, 0x0A#8, 0x0B#8, 0x20#8, 0x40#8,
    0x60#8]

theorem decode_access_of_not_admitted {h : Byte} (hk : h ∉ admittedKeys) (ops : List Word) :
    decode (.access h ops) = .error (.keyNotAdmitted h) := by
  simp only [admittedKeys, List.mem_cons, List.not_mem_nil, or_false, not_or] at hk
  simp [decode, decodeAccess, hk]

theorem decode_access_iff_admitted {h : Byte} : (∃ ops i, decode (.access h ops) = .ok i) ↔ h ∈ admittedKeys := by
  constructor
  · rintro ⟨ops, i, hi⟩
    by_contra hk
    cases (decode_access_of_not_admitted hk ops).symm.trans hi
  · revert h
    simp only [admittedKeys, List.forall_mem_cons]
    exact ⟨⟨[0#32], _, rfl⟩, ⟨[0#32], _, rfl⟩, ⟨[], _, rfl⟩, ⟨[], _, rfl⟩, ⟨[], _, rfl⟩, ⟨[], _, rfl⟩, ⟨[], _, rfl⟩,
      ⟨[], _, rfl⟩, ⟨[], _, rfl⟩, ⟨[], _, rfl⟩, ⟨[], _, rfl⟩, ⟨[], _, rfl⟩, ⟨[0#32], _, rfl⟩, ⟨[0#32], _, rfl⟩,
      ⟨[0#32, 0#32], _, rfl⟩, by simp⟩

/-- The admitted keys by DIR, SPACE and REGNO, key by key. -/
theorem mem_admittedKeys_iff : ∀ h : Byte, h ∈ admittedKeys ↔
    (keyDir h = true ∧ keySpace h = 0#2 ∧ (keyRegno h = 0#5 ∨ keyRegno h = 3#5)) ∨
    (keyDir h = false ∧ keySpace h = 0#2 ∧
      (keyRegno h = 1#5 ∨ keyRegno h = 2#5 ∨ (4#5 ≤ keyRegno h ∧ keyRegno h ≤ 11#5))) ∨
    (keyDir h = false ∧ keySpace h ≠ 0#2 ∧ keyRegno h = 0#5) := by
  decide

theorem hostStep_of_decode {x : Item} {i : Instr} (h : decode x = .ok i) (s : State) : hostStep x s = exec i s := by
  simp [hostStep, h]

theorem hostStep_of_error {x : Item} {e : DecodeError} (h : decode x = .error e) (s : State) :
    hostStep x s = rejectHostItem e s := by
  simp [hostStep, h]

/-- Settles O36: R57's accesses are the encoder's, outside BUSY a key that is not listed is refused by name, and the
listed keys are the ones with R57's fields. -/
theorem hostKeysAreExactlyTheListed : Obligations.HostKeysAreExactlyTheListed := by
  unfold Obligations.HostKeysAreExactlyTheListed
  refine ⟨fun _ => rfl, fun _ => rfl, rfl, rfl, rfl, rfl, rfl, rfl, rfl, rfl, rfl, rfl, fun _ => rfl, fun _ => rfl,
    fun k f hf => decode_traceRead k hf, fun s h ops rest hb hk => ?_,
    fun h => decode_access_iff_admitted.trans (mem_admittedKeys_iff h)⟩
  have rejected := hostStep_of_error (decode_access_of_not_admitted hk ops) { s with pending := rest }
  exact rejected.trans (unlessBusy_of_not_busy _ hb)

/-- Settles O39: for a host item `step` is `hostStep` after the event is taken, and `hostStep` runs what it decodes. -/
theorem stepRunsTheDecodedHostItem : Obligations.StepRunsTheDecodedHostItem := by
  unfold Obligations.StepRunsTheDecodedHostItem
  exact fun s rest i => ⟨fun c h => hostStep_of_decode h _, fun k ops h => hostStep_of_decode h _⟩

/-! ### The packing of a code -/

theorem Trit.bits_toInt (t : Trit) : t.bits.toInt = t.val := by cases t <;> rfl

theorem Trit.bits_ne_two (t : Trit) : t.bits ≠ 2#2 := by cases t <;> decide

@[simp] theorem Trit.ofBits_bits (t : Trit) : Trit.ofBits t.bits = some t := by cases t <;> rfl

theorem Trit.bits_of_ofBits {b : BitVec 2} {t : Trit} (h : Trit.ofBits b = some t) : t.bits = b := by
  unfold Trit.ofBits at h
  split_ifs at h <;> cases h <;> simp_all [Trit.bits]

/-- The two low bits of a packing are its last trit's. -/
theorem extractLsb'_append_pair_low {n : Nat} (hi : BitVec n) (lo : BitVec 2) : (hi ++ lo).extractLsb' 0 2 = lo := by
  rw [BitVec.extractLsb'_append_eq_of_add_le (by simp), BitVec.extractLsb'_eq_self]

/-- The fields above the two low bits are those of what stands above them. -/
theorem extractLsb'_append_pair_high {n : Nat} (hi : BitVec n) (lo : BitVec 2) (k : Nat) :
    (hi ++ lo).extractLsb' (k + 2) 2 = hi.extractLsb' k 2 :=
  BitVec.extractLsb'_append_eq_of_le (Nat.le_add_left 2 k)

/-- Trit i of a code stands in bits [2i+1:2i] of its packing. -/
theorem Code.pack_fields (c : Code) :
    c.pack.extractLsb' 0 2 = c.c0.bits ∧ c.pack.extractLsb' 2 2 = c.c1.bits ∧ c.pack.extractLsb' 4 2 = c.c2.bits ∧
      c.pack.extractLsb' 6 2 = c.c3.bits ∧ c.pack.extractLsb' 8 2 = c.c4.bits ∧
      c.pack.extractLsb' 10 2 = c.c5.bits := by
  simp only [Code.pack, extractLsb'_append_pair_high, extractLsb'_append_pair_low, BitVec.extractLsb'_eq_self,
    and_self]

theorem Code.unpack_pack (c : Code) : Code.unpack c.pack = some c := by
  obtain ⟨h0, h1, h2, h3, h4, h5⟩ := c.pack_fields
  simp [Code.unpack, h0, h1, h2, h3, h4, h5]

/-- A 12-bit word is its six fields of two bits. -/
theorem append_extractLsb'_pairs (w : BitVec 12) :
    w.extractLsb' 10 2 ++ w.extractLsb' 8 2 ++ w.extractLsb' 6 2 ++ w.extractLsb' 4 2 ++ w.extractLsb' 2 2 ++
      w.extractLsb' 0 2 = w := by
  simp only [BitVec.extractLsb'_append_extractLsb'_eq_extractLsb', BitVec.extractLsb'_eq_self]

theorem Code.pack_of_unpack {w : BitVec 12} {c : Code} (h : Code.unpack w = some c) : c.pack = w := by
  simp only [Code.unpack, Option.bind_eq_bind, Option.bind_eq_some_iff, Option.pure_def, Option.some.injEq] at h
  obtain ⟨t0, h0, t1, h1, t2, h2, t3, h3, t4, h4, t5, h5, rfl⟩ := h
  simp only [Code.pack, Trit.bits_of_ofBits h0, Trit.bits_of_ofBits h1, Trit.bits_of_ofBits h2, Trit.bits_of_ofBits h3,
    Trit.bits_of_ofBits h4, Trit.bits_of_ofBits h5]
  exact append_extractLsb'_pairs w

/-- Settles O33: trit by trit, the field of the packing holds the trit, which is its bits' integer and no other
pattern's. -/
theorem codePackingHoldsEveryTrit : Obligations.CodePackingHoldsEveryTrit := by
  unfold Obligations.CodePackingHoldsEveryTrit
  refine ⟨fun c i hi => ?_, Code.unpack_pack, fun w c => Code.pack_of_unpack⟩
  have holds : ∀ t : Trit, c.pack.extractLsb' (2 * i) 2 = t.bits → c.vals[i]? = some t.val →
      c.vals[i]? = some ((c.pack.extractLsb' (2 * i) 2).toInt) ∧ c.pack.extractLsb' (2 * i) 2 ≠ 2#2 := by
    intro t field value
    rw [field, t.bits_toInt]
    exact ⟨value, t.bits_ne_two⟩
  obtain ⟨h0, h1, h2, h3, h4, h5⟩ := c.pack_fields
  match i, hi with
  | 0, _ => exact holds c.c0 h0 rfl
  | 1, _ => exact holds c.c1 h1 rfl
  | 2, _ => exact holds c.c2 h2 rfl
  | 3, _ => exact holds c.c3 h3 rfl
  | 4, _ => exact holds c.c4 h4 rfl
  | 5, _ => exact holds c.c5 h5 rfl

end Sys2Proof.Machine
end

section
/-! PROOFS, 30_encoding.md, the encoder's turn. No instruction faults, no host item faults, and in a state of the
invariant the encoder's turn finds a symbol of '0' and '1' (R63), so no run from reset meets a fault. -/

namespace Sys2Proof.Machine

/-! ### Host items never fault -/

theorem unlessBusy_ne_fault {s : State} {k : State → Out} {f : Fault} (h : k s ≠ .fault f) :
    unlessBusy s k ≠ .fault f := by
  cases hb : s.busy
  · rwa [unlessBusy_of_not_busy k hb]
  · simp [unlessBusy_of_busy k hb]

theorem pairStep_ne_fault (p : Nat) (l : Int) (s : State) (f : Fault) : pairStep p l s ≠ .fault f := by
  unfold pairStep; split <;> simp

/-- An instruction answers or refuses; the faults are the fetch's and the decoder's (log 10). -/
theorem exec_ne_fault (i : Instr) (s : State) (f : Fault) : exec i s ≠ .fault f := by
  have command (k : Command) : unlessBusy s (fun s => .next (commandEffect k s)) ≠ .fault f :=
    unlessBusy_ne_fault (by simp)
  cases i with
  | nop => exact command .nop
  | encode2b1q => exact command .encode2b1q
  | encode8b6t => exact command .encode8b6t
  | clear => exact command .clear
  | wrCmd c => unfold exec execWrCmd; exact unlessBusy_ne_fault (by split <;> simp)
  | wrInData v => unfold exec execWrInData; exact unlessBusy_ne_fault (by split <;> simp)
  | rdStatus => simp [exec, execRdStatus]
  | rdErrInfo | rdInLen | rdOutLen | rdTraceLen | rdSymIdx | rdPrevLevel | rdRunningSum | rdPrevCode | rdPrevSum =>
    exact answer_not_fault
  | rdIn k | rdOut k => exact answer_not_fault
  | rdTr k g => exact answer_not_fault
  | pair00 | pair01 | pair10 | pair11 => exact pairStep_ne_fault _ _ s f
  | byte d => simp only [exec, execByte]; split <;> simp
  | validate => simp only [exec, execValidate]; split <;> simp

theorem decode_cmd_ne_notBinary (c : Word) : decode (.cmd c) ≠ .error .notBinary := by
  simp only [decode, decodeCmd]; split <;> simp

theorem decode_access_ne_notBinary (h : Byte) (ops : List Word) : decode (.access h ops) ≠ .error .notBinary := by
  have no (h : Byte) (i : Instr) : noOperand i h ops ≠ .error .notBinary := by unfold noOperand; split <;> simp
  have one (h : Byte) (i : Word → Instr) : oneOperand i h ops ≠ .error .notBinary := by
    unfold oneOperand; split <;> simp
  have two (h : Byte) : traceOperands h ops ≠ .error .notBinary := by
    unfold traceOperands; split <;> [split <;> simp; simp]
  by_cases hk : h ∈ admittedKeys
  · revert h
    simp only [admittedKeys, List.forall_mem_cons]
    exact ⟨one _ _, one _ _, no _ _, no _ _, no _ _, no _ _, no _ _, no _ _, no _ _, no _ _, no _ _, no _ _, one _ _,
      one _ _, two _, by simp⟩
  · simp [decode_access_of_not_admitted hk]

theorem hostStep_ne_fault {x : Item} (hx : decode x ≠ .error .notBinary) (s : State) (f : Fault) :
    hostStep x s ≠ .fault f := by
  cases h : decode x with
  | ok i => rw [hostStep_of_decode h]; exact exec_ne_fault i s f
  | error e =>
    rw [hostStep_of_error h]
    refine unlessBusy_ne_fault ?_
    cases e with
    | notBinary => exact absurd h hx
    | illegalCommand c | keyNotAdmitted c | wrongOperands c | fieldOutOfRange c => simp

/-! ### The symbol at SYM_IDX -/

/-- A legal character is the one of its bit (41_validator.md R86). -/
theorem charOf_charBit {c : Byte} (h : c = 0x30#8 ∨ c = 0x31#8) : charOf (charBit c) = c := by
  rcases h with rfl | rfl <;> rfl

theorem exists_two_of_le_length : ∀ {cs : List Byte}, 2 ≤ cs.length → ∃ c0 c1 tail, cs = c0 :: c1 :: tail
  | c0 :: c1 :: tail, _ => ⟨c0, c1, tail, rfl⟩
  | [], h | [_], h => by simp at h

theorem exists_eight_of_le_length : ∀ {cs : List Byte}, 8 ≤ cs.length →
    ∃ c0 c1 c2 c3 c4 c5 c6 c7 tail, cs = c0 :: c1 :: c2 :: c3 :: c4 :: c5 :: c6 :: c7 :: tail
  | c0 :: c1 :: c2 :: c3 :: c4 :: c5 :: c6 :: c7 :: tail, _ => ⟨c0, c1, c2, c3, c4, c5, c6, c7, tail, rfl⟩
  | [], h | [_], h | [_, _], h | [_, _, _], h | [_, _, _, _], h | [_, _, _, _, _], h | [_, _, _, _, _, _], h
  | [_, _, _, _, _, _, _], h => by simp at h

/-- A frame under way has a whole symbol at SYM_IDX (10_state.md R25). -/
theorem FrameUnderWay.width_le_length {s : State} (frame : FrameUnderWay s) :
    symbolWidth s.scheme ≤ (inputAtSymbol s).length := by
  have fits : symbolWidth s.scheme * (s.symIdx + 1) ≤ s.input.length :=
    (Nat.mul_le_mul_left _ frame.symbolsLeft).trans (Nat.mul_div_le _ _)
  rw [inputAtSymbol, List.length_drop]
  rw [Nat.mul_succ] at fits
  omega

theorem FrameUnderWay.charOf_charBit {s : State} (frame : FrameUnderWay s) {c : Byte} (hc : c ∈ inputAtSymbol s) :
    charOf (charBit c) = c :=
  Machine.charOf_charBit (frame.binary c (List.mem_of_mem_drop hc))

/-- The pair operations are one: the level of the table, by the pair's bits (42_pair_encoder_2b1q.md R95, R98–R101). -/
theorem exec_pairOf (b1 b0 : Bool) (s : State) :
    exec (pairOf b1 b0) s = pairStep (pairValue b1 b0) (table2B1Q b1 b0 (isPreviousPositive s.prevLevel)) s := by
  cases b1 <;> cases b0 <;> simp only [pairOf, exec, execPair00, execPair01, execPair10, execPair11] <;>
    cases isPreviousPositive s.prevLevel <;> rfl

/-- In PHASE SYMBOLS of a frame under way the encoder's turn is a symbol step (30_encoding.md R63). -/
theorem FrameUnderWay.encoderStep_advance {s : State} (frame : FrameUnderWay s) (hrun : s.run = .busy .symbols) :
    ∃ vs rs t, encoderStep s = .next t ∧ SymbolAdvance vs rs s t := by
  have enabled : symbolEnabled s.scheme s = true := (symbolEnabled_iff _ s).mpr ⟨hrun, rfl, frame.symbolsLeft⟩
  have whole := frame.width_le_length
  have char := fun c => frame.charOf_charBit (c := c)
  have turn {x : Item} {i : Instr} (hx : fetchSymbol s = .ok x) (hi : decode x = .ok i) : encoderStep s = exec i s :=
    encoderStep_of_fetch (phase := .symbols) hrun hx hi
  obtain ⟨pairs, bytes⟩ := symbolsDecodeMostSignificantFirst.1 charOf rfl
  cases hs : s.scheme with
  | twoB1Q =>
    rw [hs] at enabled whole
    obtain ⟨c0, c1, tail, hin⟩ := exists_two_of_le_length whole
    have decoded := pairs (charBit c0) (charBit c1)
    simp only [hin, List.forall_mem_cons] at char
    obtain ⟨h0, h1, -⟩ := char
    rw [h0, h1] at decoded
    have answered := (turn (by simp [fetchSymbol, hs, hin]) decoded).trans (exec_pairOf _ _ s)
    exact ⟨_, _, _, answered.trans (pairStep_next.mpr ⟨enabled, rfl⟩), emitLevel_advance _ _ s⟩
  | eightB6T =>
    rw [hs] at enabled whole
    obtain ⟨c0, c1, c2, c3, c4, c5, c6, c7, tail, hin⟩ := exists_eight_of_le_length whole
    have decoded := bytes (charBit c0) (charBit c1) (charBit c2) (charBit c3) (charBit c4) (charBit c5) (charBit c6)
      (charBit c7)
    simp only [hin, List.forall_mem_cons] at char
    obtain ⟨h0, h1, h2, h3, h4, h5, h6, h7, -⟩ := char
    rw [h0, h1, h2, h3, h4, h5, h6, h7] at decoded
    have answered := turn (by simp [fetchSymbol, hs, hin]) decoded
    exact ⟨_, _, _, answered.trans (execByte_next.mpr ⟨enabled, rfl⟩), emitByte_advance _ s⟩

/-- In PHASE VALIDATE the encoder's turn is the VALIDATE step (41_validator.md R92). -/
theorem encoderStep_validate {s : State} (hrun : s.run = .busy .validate) :
    encoderStep s = .next (admitFrame (validateFrame s.input s.scheme) s) :=
  (encoderStep_of_fetch hrun rfl rfl).trans (execValidate_next.mpr ⟨hrun, rfl⟩)

/-! ### No fault under the invariant -/

theorem State.Inv.encoderStep_answers {s : State} (inv : s.Inv) (hb : s.busy = true) :
    ∃ t, encoderStep s = .next t := by
  obtain ⟨phase, hrun⟩ := (busy_eq_true_iff s).mp hb
  cases phase with
  | validate => exact ⟨_, encoderStep_validate hrun⟩
  | symbols =>
    obtain ⟨vs, rs, t, turn, -⟩ := (inv.underWay hrun).encoderStep_advance hrun
    exact ⟨t, turn⟩

theorem encoderStep_of_not_busy {s : State} (hb : s.busy = false) : encoderStep s = .refused .encoderIdle := by
  unfold encoderStep
  cases hrun : s.run with
  | busy phase => exact absurd hrun ((busy_eq_false_iff s).mp hb phase)
  | idle | done | error => rfl

theorem State.Inv.encoderStep_ne_fault {s : State} (inv : s.Inv) (f : Fault) : encoderStep s ≠ .fault f := by
  cases hb : s.busy with
  | false => simp [encoderStep_of_not_busy hb]
  | true =>
    obtain ⟨t, turn⟩ := inv.encoderStep_answers hb
    simp [turn]

theorem State.Inv.with_pending {s : State} (inv : s.Inv) (events : List Event) :
    ({ s with pending := events } : State).Inv :=
  inv.with_lists events s.replies

theorem State.Inv.step_ne_fault {s : State} (inv : s.Inv) (f : Fault) : step s ≠ .fault f := by
  unfold step
  split
  · exact inv.encoderStep_ne_fault f
  · exact (inv.with_pending _).encoderStep_ne_fault f
  · simp
  · exact hostStep_ne_fault (decode_cmd_ne_notBinary _) _ f
  · exact hostStep_ne_fault (decode_access_ne_notBinary _ _) _ f

/-- Settles O46: host items never fault, and the invariant holds whatever events are still to come. -/
theorem encoderTurnAnswersUnderInvariant : Obligations.EncoderTurnAnswersUnderInvariant := by
  unfold Obligations.EncoderTurnAnswersUnderInvariant
  exact fun s inv => ⟨inv.step_ne_fault, fun hb rest => (inv.with_pending rest).encoderStep_answers hb⟩

/-! ### Runs from reset -/

theorem Reachable.inv {s : State} (reachable : Reachable s) : s.Inv := by
  induction reachable with
  | start c events => exact resetSatisfiesInvariant c events
  | next s t _ h ih => exact stepKeepsInvariant s t ih h

theorem State.Inv.run_ne_fault {s : State} (inv : s.Inv) (k : Nat) (f : Fault) :
    Host.Core.run Sys2Proof.core k s ≠ .fault f := by
  induction k generalizing s with
  | zero => simp
  | succ k ih =>
    cases h : step s with
    | next t => rw [run_succ_next h]; exact ih (stepKeepsInvariant s t inv h)
    | fault g => exact absurd h (inv.step_ne_fault g)
    | refused r => simp [run_succ_refused h]

/-- Settles O47: a reachable state is one of the invariant, which every step of the run keeps. -/
theorem reachableRunsNeverFault : Obligations.ReachableRunsNeverFault := by
  unfold Obligations.ReachableRunsNeverFault
  exact fun s reachable k f => reachable.inv.run_ne_fault k f

end Sys2Proof.Machine
end

section
/-! PROOFS, 30_encoding.md, host programs. What each line becomes (R65, R66), and how an order of events carries a
program out, in line order and to the end of the run (R67; 40_host_interface.md R84). -/

namespace Sys2Proof.Machine

/-! ### WAIT's test -/

theorem RunState.code_eq_one_iff (s : State) : s.run.code = 1#2 ↔ s.busy = true := by
  cases h : s.run <;> simp [RunState.code, State.busy, h]

/-- The mask 3 keeps the two low bits. -/
theorem waitsAgain_append (hi : BitVec 30) (lo : BitVec 2) : waitsAgain (hi ++ lo) = true ↔ lo = 1#2 := by
  have mask : ((hi ++ lo) &&& 3#32).toNat = lo.toNat := by
    rw [BitVec.toNat_and]
    show (hi ++ lo).toNat &&& 2 ^ 2 - 1 = _
    rw [Nat.and_two_pow_sub_one_eq_mod, ← BitVec.toNat_setWidth, BitVec.setWidth_append]
    simp
  simp [waitsAgain, ← BitVec.toNat_inj, mask]

/-- WAIT goes round on exactly the STATUS words that show BUSY (30_encoding.md R66). -/
theorem waitsAgain_statusWord (s : State) : waitsAgain (statusWord s) = s.busy := by
  rw [Bool.eq_iff_iff, ← RunState.code_eq_one_iff]
  exact waitsAgain_append (0#26 ++ s.errCode.code ++ schemeCode s.scheme) s.run.code

theorem returns_rdStatus (s : State) : Returns .rdStatus s (statusWord s) := rfl

/-! ### Lines -/

/-- The access is one of 30_encoding.md R57, its operands well formed. -/
def Event.Admitted (e : Event) : Prop :=
  ∃ h ops i, e = .access h ops ∧ decode (.access h ops) = .ok i ∧ WellFormed i = true

theorem Event.admitted_of_decode {h : Byte} {ops : List Word} {i : Instr} (hd : decode (.access h ops) = .ok i) :
    Event.Admitted (.access h ops) :=
  ⟨h, ops, i, rfl, hd, wellFormed_of_decode hd⟩

/-- Every line issues admitted accesses, RDTR when its field number is one. -/
theorem HostLine.expand_admitted (l : HostLine) (hl : ∀ k f, l = .rdTr k f → f.toNat ≤ 13) :
    ∀ op ∈ l.expand, op.event.Admitted := by
  have write (v : Word) : Event.Admitted (.access 0x83#8 [v]) := Event.admitted_of_decode (i := .wrInData v) rfl
  have command (c : Word) : Event.Admitted (.access 0x80#8 [c]) := Event.admitted_of_decode (i := .wrCmd c) rfl
  cases l with
  | wrCmd c => exact List.forall_mem_singleton.mpr (command c)
  | wrInData v => exact List.forall_mem_singleton.mpr (write v)
  | rd r =>
    refine List.forall_mem_singleton.mpr ?_
    cases r <;> exact Event.admitted_of_decode rfl
  | rdIn k => exact List.forall_mem_singleton.mpr (Event.admitted_of_decode (i := .rdIn k) rfl)
  | rdOut k => exact List.forall_mem_singleton.mpr (Event.admitted_of_decode (i := .rdOut k) rfl)
  | rdTr k f => exact List.forall_mem_singleton.mpr (Event.admitted_of_decode (decode_traceRead k (hl k f rfl)))
  | nop | enc2b1q | enc8b6t | clear => exact List.forall_mem_singleton.mpr (command _)
  | push b => exact List.forall_mem_singleton.mpr (write _)
  | pushs chars => exact List.forall_mem_map.mpr fun ch _ => write _
  | wait => exact List.forall_mem_singleton.mpr (Event.admitted_of_decode (i := .rdStatus) rfl)

theorem rejectHostItem_fieldOutOfRange_refused (f : Word) (s : State) :
    ∃ r, rejectHostItem (.fieldOutOfRange f) s = .refused r := by
  cases hb : s.busy with
  | true => exact ⟨_, unlessBusy_of_busy _ hb⟩
  | false => exact ⟨_, unlessBusy_of_not_busy _ hb⟩

/-- Settles O40: the expansions are the definition's, every access but an ill-formed RDTR decodes, and WAIT's test reads
STATE. -/
theorem hostLinesBecomeAdmittedAccesses : Obligations.HostLinesBecomeAdmittedAccesses := by
  unfold Obligations.HostLinesBecomeAdmittedAccesses
  refine ⟨fun _ => rfl, fun _ => rfl, by decide, fun _ => rfl, fun _ => rfl, fun _ _ => rfl, rfl, rfl, rfl, rfl, rfl,
    rfl, rfl, fun _ _ => rfl, rfl, rfl, fun _ _ => ⟨rfl, fun _ => rfl⟩, rfl, fun _ _ => rfl, HostLine.expand_admitted,
    fun k f hf => ⟨decode_traceRead_fieldOutOfRange k hf, fun s rest => ?_⟩,
    fun s => ⟨_, returns_rdStatus s, Bool.eq_iff_iff.mp (waitsAgain_statusWord s)⟩⟩
  obtain ⟨r, refused⟩ := rejectHostItem_fieldOutOfRange_refused f { s with pending := rest }
  exact ⟨r, (hostStep_of_error (decode_traceRead_fieldOutOfRange k hf) _).trans refused⟩

/-! ### A program and the host's events -/

/-- The host's events are the accesses of a program in line order: each once, and WAIT's one or more times
(30_encoding.md R66, R67). `more` counts the further rounds of each operation. -/
def InLineOrder (p : List HostOp) (hostEvents : List Event) : Prop :=
  ∃ more : List Nat, more.length = p.length ∧
    (∀ (i : Nat) h ops, p[i]? = some (.access h ops) → more[i]? = some 0) ∧
    hostEvents = (p.zip more).flatMap fun q => List.replicate (q.2 + 1) q.1.event

theorem InLineOrder.nil : InLineOrder [] [] := ⟨[], rfl, by simp, rfl⟩

theorem InLineOrder.cons {p : List HostOp} {es : List Event} (order : InLineOrder p es) (op : HostOp) :
    InLineOrder (op :: p) (op.event :: es) := by
  obtain ⟨more, length, once, rfl⟩ := order
  refine ⟨0 :: more, by simp [length], fun i h ops hi => ?_, by simp⟩
  cases i with
  | zero => rfl
  | succ i => exact once i h ops hi

/-- One more round of a WAIT. -/
theorem InLineOrder.wait_again {p : List HostOp} {es : List Event} (order : InLineOrder (.wait :: p) es) :
    InLineOrder (.wait :: p) (HostOp.wait.event :: es) := by
  obtain ⟨_ | ⟨rounds, more⟩, length, once, rfl⟩ := order
  · simp at length
  refine ⟨(rounds + 1) :: more, length, fun i h ops hi => ?_, by simp [List.replicate_succ]⟩
  cases i with
  | zero => cases hi
  | succ i => exact once (i + 1) h ops hi

theorem fromHost_eq_false_iff {e : Event} : e.fromHost = false ↔ e = .encoder ∨ e = .reset := by
  cases e <;> simp [Event.fromHost]

/-- Encoder turns and reset assertions leave the program alone (30_encoding.md R67). -/
theorem advanceProgram_of_not_fromHost {e : Event} (he : e.fromHost = false) (p : List HostOp) (t : State) :
    advanceProgram p e t = some p := by
  simp [advanceProgram, he]

/-- A host event is the access of the program's next operation, which it moves past unless that is a WAIT. -/
theorem advanceProgram_fromHost {p p' : List HostOp} {e : Event} {t : State} (he : e.fromHost = true)
    (h : advanceProgram p e t = some p') :
    ∃ op rest, p = op :: rest ∧ e = op.event ∧ (p' = rest ∨ (op = .wait ∧ p' = p)) := by
  cases p with
  | nil => simp [advanceProgram, he] at h
  | cons op rest =>
    by_cases hop : e = op.event
    · refine ⟨op, rest, rfl, hop, ?_⟩
      subst hop
      cases op with
      | access k ops => exact .inl (Option.some.inj ((advanceProgram_access k ops rest t).symm.trans h)).symm
      | wait =>
        simp only [advanceProgram, he, if_true, Option.some.injEq] at h
        split at h
        · exact .inr ⟨rfl, h.symm⟩
        · exact .inl h.symm
    · rw [advanceProgram_other he hop] at h
      cases h

/-- A program carried out to its end: the host's events are its accesses in line order. -/
theorem inLineOrder_of_carryOut {p : List HostOp} {es : List Event} {s t : State}
    (h : carryOut p es s = some ([], t)) : InLineOrder p (es.filter Event.fromHost) := by
  induction es generalizing p s with
  | nil => cases h; exact .nil
  | cons e es ih =>
    obtain ⟨u, p', -, advance, rest⟩ := carryOut_cons.mp h
    have later := ih rest
    cases he : e.fromHost with
    | false =>
      cases (advanceProgram_of_not_fromHost he p u).symm.trans advance
      simpa [he] using later
    | true =>
      rw [List.filter_cons_of_pos he]
      obtain ⟨op, tail, rfl, rfl, rfl | ⟨rfl, rfl⟩⟩ := advanceProgram_fromHost he advance
      · exact later.cons op
      · exact later.wait_again

/-- Carrying out is a run of the machine over exactly those events. -/
theorem run_of_carryOut {p left : List HostOp} {es : List Event} {s t : State}
    (h : carryOut p es s = some (left, t)) :
    Host.Core.run Sys2Proof.core es.length { s with pending := es } = .next t ∧ t.pending = [] := by
  induction es generalizing p s with
  | nil => cases h; exact ⟨rfl, rfl⟩
  | cons e es ih =>
    obtain ⟨u, p', stepped, -, rest⟩ := carryOut_cons.mp h
    have pending : u.pending = es := step_pending stepped
    subst pending
    rw [List.length_cons, run_succ_next stepped]
    exact ih rest

/-- The block's own list of events is not read: the order is the argument. -/
theorem carryOut_with_pending (p : List HostOp) (es events : List Event) (s : State) :
    carryOut p es { s with pending := events } = carryOut p es s := by
  cases es <;> rfl

/-- A host event that is not the program's next access has no place in the program's run. -/
theorem carryOut_of_advance_none {p : List HostOp} {e : Event} {es : List Event} {s : State}
    (h : ∀ t, advanceProgram p e t = none) : carryOut p (e :: es) s = none := by
  rw [Option.eq_none_iff_forall_ne_some]
  intro r hr
  obtain ⟨t, p', -, advance, -⟩ := carryOut_cons.mp hr
  cases (h t).symm.trans advance

/-- One round of WAIT (30_encoding.md R66). -/
theorem carryOut_wait (p : List HostOp) (es : List Event) (s : State) :
    carryOut (.wait :: p) (.access 0x01#8 [] :: es) s =
      carryOut (if s.busy then .wait :: p else p) es { s with replies := s.replies ++ [statusWord s] } := by
  have stepped : step { s with pending := .access 0x01#8 [] :: es } =
      .next (giveReply (statusWord s) { s with pending := es }) := rfl
  have advance := advanceProgram_wait p (giveReply (statusWord s) { s with pending := es }) (statusWord s) (by simp)
  rw [carryOut_step stepped advance, waitsAgain_statusWord]
  exact carryOut_with_pending _ es es { s with replies := s.replies ++ [statusWord s] }

/-! ### The end of a frame -/

/-- How many turns the encoder has left in its frame: 1 and then one for each symbol, if the frame is valid
(40_host_interface.md R79, R80). -/
def turnsLeft (s : State) : Nat :=
  match s.run with
  | .busy .validate =>
    match validateFrame s.input s.scheme with
    | .valid => 1 + symbolCount s
    | .failure _ _ => 1
  | .busy .symbols => symbolCount s - s.symIdx
  | .idle | .done | .error => 0

theorem turnsLeft_of_symbols {s : State} (hrun : s.run = .busy .symbols) : turnsLeft s = symbolCount s - s.symIdx := by
  simp [turnsLeft, hrun]

theorem turnsLeft_of_not_busy {s : State} (hb : s.busy = false) : turnsLeft s = 0 := by
  cases hrun : s.run with
  | busy phase => exact absurd hrun ((busy_eq_false_iff s).mp hb phase)
  | idle | done | error => simp [turnsLeft, hrun]

/-- The VALIDATE step is one turn. -/
theorem turnsLeft_admitFrame {s : State} (hrun : s.run = .busy .validate) (start : s.symIdx = 0) :
    turnsLeft s = turnsLeft (admitFrame (validateFrame s.input s.scheme) s) + 1 := by
  cases hv : validateFrame s.input s.scheme with
  | failure kind info => simp [turnsLeft, hrun, hv, admitFrame]
  | valid =>
    by_cases empty : s.input.length = 0
    · simp [turnsLeft, hrun, hv, admitFrame, empty, symbolCount]
    · simp [turnsLeft, hrun, hv, admitFrame, empty, symbolCount, start, Nat.add_comm]

/-- A symbol step is one turn. -/
theorem SymbolAdvance.turnsLeft_eq {vs : List Int} {rs : List TraceRecord} {s t : State}
    (adv : SymbolAdvance vs rs s t) (hrun : s.run = .busy .symbols) (left : s.symIdx < symbolCount s) :
    turnsLeft s = turnsLeft t + 1 := by
  rw [turnsLeft_of_symbols hrun]
  by_cases last : s.symIdx + 1 = symbolCount s
  · have done : t.run = .done := by rw [adv.run, if_pos last]
    simp [turnsLeft, done, ← last]
  · have goesOn : t.run = .busy .symbols := by rw [adv.run, if_neg last, hrun]
    rw [turnsLeft_of_symbols goesOn, adv.symbolCount_eq, adv.symIdx]
    omega

/-- While BUSY the encoder's turn uses up one of the turns left. -/
theorem State.Inv.encoderStep_turnsLeft {s : State} (inv : s.Inv) (hb : s.busy = true) :
    ∃ t, encoderStep s = .next t ∧ turnsLeft s = turnsLeft t + 1 := by
  obtain ⟨phase, hrun⟩ := (busy_eq_true_iff s).mp hb
  cases phase with
  | validate => exact ⟨_, encoderStep_validate hrun, turnsLeft_admitFrame hrun (inv.validating hrun).symIdx⟩
  | symbols =>
    have frame := inv.underWay hrun
    obtain ⟨vs, rs, t, turn, adv⟩ := frame.encoderStep_advance hrun
    exact ⟨t, turn, adv.turnsLeft_eq hrun frame.symbolsLeft⟩

/-- WAIT ends after the turns that are left. -/
theorem State.Inv.carryOut_wait_ends {s : State} (inv : s.Inv) :
    ∃ t, carryOut [.wait] (List.replicate (turnsLeft s) .encoder ++ [.access 0x01#8 []]) s = some ([], t) ∧
      t.busy = false := by
  generalize hn : turnsLeft s = n
  induction n generalizing s with
  | zero =>
    have hb : s.busy = false := by
      by_contra busy
      obtain ⟨t, -, turns⟩ := inv.encoderStep_turnsLeft (Bool.eq_true_of_not_eq_false busy)
      omega
    refine ⟨{ s with replies := s.replies ++ [statusWord s], pending := [] }, ?_, hb⟩
    simp only [List.replicate_zero, List.nil_append, carryOut_wait, hb]
    rfl
  | succ n ih =>
    have hb : s.busy = true := by
      by_contra idle
      simp [turnsLeft_of_not_busy (Bool.eq_false_of_not_eq_true idle)] at hn
    obtain ⟨t, turn, turns⟩ :=
      (inv.with_pending (List.replicate n .encoder ++ [.access 0x01#8 []])).encoderStep_turnsLeft hb
    have same : turnsLeft { s with pending := List.replicate n .encoder ++ [.access 0x01#8 []] } = turnsLeft s := rfl
    have stepped :
        step { s with pending := .encoder :: (List.replicate n .encoder ++ [.access 0x01#8 []]) } = .next t := turn
    obtain ⟨u, carried, ended⟩ := ih (s := t) (stepKeepsInvariant _ t (inv.with_pending _) stepped) (by omega)
    exact ⟨u, (carryOut_step stepped (advanceProgram_encoder _ t)).trans carried, ended⟩

/-! ### Programs -/

theorem filter_fromHost (es : List Event) : es.filter (fun e => e ≠ .encoder ∧ e ≠ .reset) = es.filter Event.fromHost :=
  List.filter_congr fun e _ => by cases e <;> simp [Event.fromHost]

/-- Settles O41: an order that is carried out is a run whose host events are the program's accesses in line order; one
event at the front moves as its kind says, and WAIT ends after the turns the encoder has left. -/
theorem hostProgramsRunInLineOrderToTheirEnd : Obligations.HostProgramsRunInLineOrderToTheirEnd := by
  unfold Obligations.HostProgramsRunInLineOrderToTheirEnd
  refine ⟨?carriedOut, ?access, ?otherAccess, ?notFromHost, ?waitRound, ?waitEnds, ?ended, ?observed, ?goesOn⟩
  case carriedOut =>
    intro p left es s t h
    obtain ⟨run, pending⟩ := run_of_carryOut h
    refine ⟨run, pending, ?_⟩
    rintro rfl
    rw [filter_fromHost]
    exact inLineOrder_of_carryOut h
  case access => exact fun h ops p es s t stepped => carryOut_step stepped (advanceProgram_access h ops p t)
  case otherAccess =>
    exact fun h ops es s => ⟨carryOut_of_advance_none (advanceProgram_done h ops),
      fun op p other => carryOut_of_advance_none (advanceProgram_other rfl other.symm p)⟩
  case notFromHost =>
    intro e he p es s t stepped
    have notHost : e.fromHost = false := fromHost_eq_false_iff.mpr (by simpa using he)
    exact carryOut_step stepped (advanceProgram_of_not_fromHost notHost p t)
  case waitRound => exact fun p es s => ⟨statusWord s, returns_rdStatus s, carryOut_wait p es s⟩
  case waitEnds => exact fun s inv => ⟨turnsLeft s, inv.carryOut_wait_ends⟩
  case ended => exact fun s => by simp only [runEnded_iff, fromHost_eq_false_iff]
  case observed => exact fun s k ended => observeRun_of_runEnded ended k
  case goesOn => exact fun s t k goesOn stepped => by simp [observeRun, goesOn, stepped]

end Sys2Proof.Machine
end

section
/-! PROOFS, 40_host_interface.md, the accesses. The commands and WR CMD (R69–R72), WR IN_DATA (R73), and the reads
(R74–R78). -/

namespace Sys2Proof.Machine

/-! ### Commands -/

/-- Outside BUSY a command word's instruction has its command's effect (40_host_interface.md R70–R72). -/
theorem exec_command (k : Command) {s : State} (hb : s.busy = false) : exec k.instr s = .next (commandEffect k s) := by
  cases k <;> exact unlessBusy_of_not_busy (fun s => .next (commandEffect _ s)) hb

theorem exec_encodeCommand (sch : Scheme) {s : State} (hb : s.busy = false) :
    exec (encodeCommand sch) s = .next (startFrame sch s) := by
  cases sch with
  | twoB1Q => exact exec_command .encode2b1q hb
  | eightB6T => exact exec_command .encode8b6t hb

theorem exec_wrCmd_of_busy {s : State} (c : Word) (hb : s.busy = true) :
    exec (.wrCmd c) s = .refused .accessWhileBusy := by
  rw [exec, execWrCmd, unlessBusy_of_busy _ hb]

/-- WR CMD of a legal word issues the word's command (40_host_interface.md R69). -/
theorem exec_wrCmd_of_some {s : State} {c : Word} {k : Command} (hc : decodeCommand c = some k)
    (hb : s.busy = false) : exec (.wrCmd c) s = .next (commandEffect k s) := by
  simp [exec, execWrCmd, unlessBusy_of_not_busy _ hb, hc]

theorem exec_wrCmd_of_none {s : State} {c : Word} (hc : decodeCommand c = none) (hb : s.busy = false) :
    exec (.wrCmd c) s = .next (raiseIllegalCommand c s) := by
  simp [exec, execWrCmd, unlessBusy_of_not_busy _ hb, hc]

/-- Settles O3: NOP's effect is the state itself. -/
theorem nopChangesNothing : Obligations.NopChangesNothing := by
  unfold Obligations.NopChangesNothing
  exact ⟨decodeInvertsEncode .nop rfl, fun _ hb => exec_command .nop hb⟩

/-- Settles O4: ENCODE's effect is `startFrame` of its scheme. -/
theorem encodeStartsFreshFrame : Obligations.EncodeStartsFreshFrame := by
  unfold Obligations.EncodeStartsFreshFrame
  exact ⟨decodeInvertsEncode .encode2b1q rfl, decodeInvertsEncode .encode8b6t rfl,
    fun _ hb => ⟨exec_encodeCommand .twoB1Q hb, exec_encodeCommand .eightB6T hb⟩⟩

/-- Settles O5: CLEAR's effect is `resetBlock`, the reset values but for the model's own fields. -/
theorem clearAppliesReset : Obligations.ClearAppliesReset := by
  unfold Obligations.ClearAppliesReset
  exact ⟨decodeInvertsEncode .clear rfl, fun _ hb => exec_command .clear hb⟩

/-- Settles O6: outside BUSY WR CMD and the instruction of its word's command have one effect, and a word that names no
command raises IllegalCommand. -/
theorem writeCommandIssuesItsCommand : Obligations.WriteCommandIssuesItsCommand := by
  unfold Obligations.WriteCommandIssuesItsCommand
  refine ⟨fun c => decodeInvertsEncode (.wrCmd c) rfl, fun s => ⟨fun hb c => exec_wrCmd_of_busy c hb, fun hb => ?_⟩⟩
  have issues {c : Word} {k : Command} (hc : decodeCommand c = some k) :
      ∃ t, exec (.wrCmd c) s = .next t ∧ exec k.instr s = .next t :=
    ⟨_, exec_wrCmd_of_some hc hb, exec_command k hb⟩
  exact ⟨exec_wrCmd_of_some (k := .nop) rfl hb, issues (k := .encode2b1q) rfl, issues (k := .encode8b6t) rfl,
    issues (k := .clear) rfl,
    fun c h0 h1 h5 h2 => exec_wrCmd_of_none ((decodeCommand_none_iff c).mpr ⟨h0, h1, h5, h2⟩) hb⟩

/-! ### WR IN_DATA -/

theorem isFull_iff (c : Config) (n : Nat) : c.isFull n = true ↔ ∃ m, c.maxFrameChars = some m ∧ n = m.val := by
  cases h : c.maxFrameChars <;> simp [Config.isFull, h]

theorem lowByte_eq_ofNat (v : Word) : v.lowByte = BitVec.ofNat 8 (v.toNat % 256) := by
  refine BitVec.eq_of_toNat_eq ?_
  simp [Word.lowByte, BitVec.extractLsb'_toNat]

/-- Settles O10: BUSY and full refuse, and with room the low byte goes to the end of IN. -/
theorem writeInDataAppendsLowByte : Obligations.WriteInDataAppendsLowByte := by
  unfold Obligations.WriteInDataAppendsLowByte
  refine ⟨fun v => decodeInvertsEncode (.wrInData v) rfl, fun s v =>
    ⟨fun hb => ?_, fun hb full => ?_, fun hb room => ?_⟩⟩
  · rw [exec, execWrInData, unlessBusy_of_busy _ hb]
  · have full : s.cfg.isFull s.input.length = true := (isFull_iff _ _).mpr full
    simp [exec, execWrInData, unlessBusy_of_not_busy _ hb, full]
  · have room : s.cfg.isFull s.input.length = false := by
      rw [← Bool.not_eq_true, isFull_iff]
      rintro ⟨m, hm, length⟩
      exact room m hm length
    simp [exec, execWrInData, unlessBusy_of_not_busy _ hb, room, appendInput, lowByte_eq_ofNat]

/-! ### RD STATUS -/

/-- The four fields of STATUS lie side by side (10_state.md R20). -/
theorem statusWord_fields (s : State) :
    (statusWord s).extractLsb' 0 2 = s.run.code ∧ (statusWord s).getLsbD 2 = (schemeCode s.scheme).getLsbD 0 ∧
      (statusWord s).extractLsb' 3 3 = s.errCode.code ∧ (statusWord s).extractLsb' 6 26 = 0#26 := by
  have fields : ∀ (e : BitVec 3) (sch : BitVec 1) (r : BitVec 2),
      (0#26 ++ e ++ sch ++ r).extractLsb' 0 2 = r ∧ (0#26 ++ e ++ sch ++ r).getLsbD 2 = sch.getLsbD 0 ∧
        (0#26 ++ e ++ sch ++ r).extractLsb' 3 3 = e ∧ (0#26 ++ e ++ sch ++ r).extractLsb' 6 26 = 0#26 := by decide
  exact fields _ _ _

theorem schemeCode_getLsbD_iff (sch : Scheme) : (schemeCode sch).getLsbD 0 = true ↔ sch = .eightB6T := by
  cases sch <;> decide

/-- Settles O11: each field of STATUS is the code of its part of the state, and the codes are distinct. -/
theorem statusReadShowsItsFields : Obligations.StatusReadShowsItsFields := by
  unfold Obligations.StatusReadShowsItsFields
  refine ⟨decodeInvertsEncode .rdStatus rfl, fun s => ⟨statusWord s, returns_rdStatus s, ?_⟩⟩
  obtain ⟨run, scheme, errCode, reserved⟩ := statusWord_fields s
  rw [run, scheme, errCode, schemeCode_getLsbD_iff, RunState.code_eq_one_iff]
  refine ⟨reserved, ?_, Iff.rfl, ?_, ?_, Iff.rfl, ?_⟩
  · cases s.run <;> simp [RunState.code]
  · cases s.run <;> simp [RunState.code]
  · cases s.run <;> simp [RunState.code]
  · cases s.errCode <;> simp [ErrCode.code]

/-! ### Register reads -/

theorem answer_readRegister_of_busy {s : State} (w : Word) (hb : s.busy = true) :
    answer (readRegister w s) s = .refused .accessWhileBusy := by
  rw [readRegister_of_busy w hb]; rfl

theorem unreadable_not_admitted : ∀ n : Byte, n = 0x00#8 ∨ n = 0x03#8 ∨ (0x0C#8 ≤ n ∧ n ≤ 0x1F#8) →
    n ∉ admittedKeys := by decide

/-- Settles O12: a register read outside BUSY answers its register's view, which is exact for a value that fits. -/
theorem registerReadsReturnTheRegister : Obligations.RegisterReadsReturnTheRegister := by
  unfold Obligations.RegisterReadsReturnTheRegister
  refine ⟨by decide, fun n hn => decode_access_of_not_admitted (unreadable_not_admitted n hn) [],
    fun s => ⟨fun hb => ?_, fun hb => ?_⟩⟩
  · have returns (w : Word) : answer (readRegister w s) s = .next { s with replies := s.replies ++ [w] } :=
      answer_readRegister w hb
    obtain ⟨lower, upper⟩ := s.prevCode.sum_bounds
    have sum : (twos32 .prevSum (prevSum s)).toInt = s.prevCode.sum :=
      twos32_toInt .prevSum (by rw [prevSum]; omega) (by rw [prevSum]; omega)
    exact ⟨returns _, ⟨_, returns _, zext32_toNat _⟩, ⟨_, returns _, zext32_toNat _⟩, ⟨_, returns _, zext32_toNat _⟩,
      ⟨_, returns _, zext32_toNat _⟩, ⟨_, returns _, twos32_toInt _⟩, ⟨_, returns _, twos32_toInt _⟩, returns _,
      ⟨_, returns _, sum.trans s.prevCode.sum_eq⟩⟩
  · have refuses (w : Word) : answer (readRegister w s) s = .refused .accessWhileBusy :=
      answer_readRegister_of_busy w hb
    simp only [List.forall_mem_cons]
    exact ⟨refuses _, refuses _, refuses _, refuses _, refuses _, refuses _, refuses _, refuses _, refuses _, by simp⟩

/-! ### RDIN and RDOUT -/

/-- Settles O13: outside BUSY RDIN looks IN up at k. -/
theorem readInReturnsTheCharacter : Obligations.ReadInReturnsTheCharacter := by
  unfold Obligations.ReadInReturnsTheCharacter
  refine fun s k => ⟨decodeInvertsEncode (.rdIn k) rfl, fun hb c hc => ⟨c.setWidth 32, ?_, ?_⟩, fun hb hk => ?_,
    fun hb => ?_⟩
  · simp [Returns, exec, execRdIn, readIn, hb, hc, answer, giveReply]
  · have := c.isLt
    rw [BitVec.toNat_setWidth, Nat.mod_eq_of_lt (by omega)]
  · simp [exec, execRdIn, readIn, hb, hk, answer]
  · simp [exec, execRdIn, readIn, hb, answer]

/-- Settles O14: outside BUSY RDOUT looks OUT up at k, in the view of an OUT element. -/
theorem readOutReturnsTheValue : Obligations.ReadOutReturnsTheValue := by
  unfold Obligations.ReadOutReturnsTheValue
  refine fun s k => ⟨decodeInvertsEncode (.rdOut k) rfl, fun hb v hv => ⟨twos32 .outElement v, ?_, twos32_toInt _⟩,
    fun hb hk => ?_, fun hb => ?_⟩
  · simp [Returns, exec, execRdOut, readOut, hb, hv, answer, giveReply]
  · simp [exec, execRdOut, readOut, hb, hk, answer]
  · simp [exec, execRdOut, readOut, hb, answer]

/-! ### RDTR -/

theorem field_eq_none (r : TraceRecord) {f : Nat} (hf : 13 < f) : r.field f = none := by
  obtain ⟨g, rfl⟩ := Nat.exists_eq_add_of_le' hf
  rfl

/-- P0 and P1 are unsigned in the preliminary records (44_trace_recorder.md R121). -/
theorem paramWord_toNat {r : TraceRecord} (f : Nat) {x : Int} (hk : r.kind = .inputAnalysis ∨ r.kind = .grouping)
    (lo : 0 ≤ x) (hi : x < 2 ^ 32) : ((paramWord r f x).toNat : Int) = x := by
  have view : paramWord r f x = zext32 (.traceField f) x.toNat := by
    rcases hk with hk | hk <;> simp [paramWord, hk]
  rw [view, zext32_toNat _ (by omega), Int.toNat_of_nonneg lo]

/-- P0 and P1 are signed in every other record (44_trace_recorder.md R121). -/
theorem paramWord_toInt {r : TraceRecord} (f : Nat) {x : Int} (notAnalysis : r.kind ≠ .inputAnalysis)
    (notGrouping : r.kind ≠ .grouping) (lo : -2 ^ 31 ≤ x) (hi : x < 2 ^ 31) : (paramWord r f x).toInt = x := by
  have view : paramWord r f x = twos32 (.traceField f) x := by
    cases hk : r.kind with
    | inputAnalysis => exact absurd hk notAnalysis
    | grouping => exact absurd hk notGrouping
    | pair | byteDecompose | dcBalance | dcAccumulation | byteFinal => simp [paramWord, hk]
  rw [view, twos32_toInt _ lo hi]

theorem returns_rdTr {s : State} {k f w : Word} {r : TraceRecord} (hb : s.busy = false)
    (hr : s.trace[k.toNat]? = some r) (hf : r.field f.toNat = some w) : Returns (.rdTr k f) s w := by
  simp [Returns, exec, execRdTr, readTrace, hb, hr, hf, answer, giveReply]

theorem exec_rdTr_fieldOutOfRange {s : State} {k f : Word} {r : TraceRecord} (hb : s.busy = false)
    (hr : s.trace[k.toNat]? = some r) (hf : 13 < f.toNat) : exec (.rdTr k f) s = .refused .fieldOutOfRange := by
  simp [exec, execRdTr, readTrace, hb, hr, field_eq_none r hf, answer]

theorem exec_rdTr_indexOutOfRange {s : State} {k : Word} (f : Word) (hb : s.busy = false)
    (hk : s.trace.length ≤ k.toNat) : exec (.rdTr k f) s = .refused .indexOutOfRange := by
  simp [exec, execRdTr, readTrace, hb, hk, answer]

/-- Settles O15: outside BUSY RDTR looks TRACE up at k, and the record's field list says the word; a record has no field
above 13. -/
theorem readTraceReturnsTheField : Obligations.ReadTraceReturnsTheField := by
  unfold Obligations.ReadTraceReturnsTheField
  refine fun s k => ⟨fun f hf => decode_traceRead k hf, fun hb r hr => ?_, fun hb hk f => ?_, fun hb f => ?_⟩
  · have returns {f w : Word} (hf : r.field f.toNat = some w) : Returns (.rdTr k f) s w := returns_rdTr hb hr hf
    refine ⟨returns ?kind, ⟨_, returns rfl, zext32_toNat _⟩, returns ?scheme,
      ⟨_, returns rfl, paramWord_toNat 3, paramWord_toInt 3⟩, ⟨_, returns rfl, paramWord_toNat 4, paramWord_toInt 4⟩,
      ⟨_, returns rfl, twos32_toInt _⟩, returns rfl, returns rfl, returns rfl, ⟨_, returns rfl, zext32_toNat _⟩,
      returns rfl, ⟨_, returns rfl, twos32_toInt _⟩, returns rfl, returns ?balNote,
      fun f hf => exec_rdTr_fieldOutOfRange hb hr hf⟩
    case kind => cases hk : r.kind <;> simp [TraceRecord.field, hk, Kind.code]
    case scheme => cases hs : r.scheme <;> simp [TraceRecord.field, hs, schemeCode]
    case balNote => cases hn : r.balNote <;> simp [TraceRecord.field, hn, BalNote.code]
  · exact ⟨fun _ => exec_rdTr_indexOutOfRange f hb hk, _, exec_rdTr_indexOutOfRange f hb hk⟩
  · simp [exec, execRdTr, readTrace, hb, answer]

end Sys2Proof.Machine
end

section
/-! PROOFS, 40_host_interface.md, the encoder's turn. What it is in PHASE SYMBOLS (R79, R82), how BUSY ends (R79), and
what the turn does not see (R81, R83). -/

namespace Sys2Proof.Machine

/-! ### The encoder's turn, whole -/

/-- A turn in PHASE SYMBOLS: the symbol at SYM_IDX, its characters those of its bits, and the state it leaves
(40_host_interface.md R79). -/
inductive SymbolTurn (s : State) : State → Prop where
  | pair (b1 b0 : Bool) (tail : List Byte) (enabled : symbolEnabled .twoB1Q s = true)
      (chars : inputAtSymbol s = charOf b1 :: charOf b0 :: tail) :
      SymbolTurn s (emitLevel (pairValue b1 b0) (table2B1Q b1 b0 (isPreviousPositive s.prevLevel)) s)
  | byte (d : Byte) (tail : List Byte) (enabled : symbolEnabled .eightB6T s = true)
      (chars : inputAtSymbol s = digitChars d.toNat 8 ++ tail) : SymbolTurn s (emitByte d.toNat s)

theorem SymbolTurn.enabled {s t : State} (turn : SymbolTurn s t) :
    s.run = .busy .symbols ∧ s.symIdx < symbolCount s := by
  cases turn with
  | pair b1 b0 tail enabled chars | byte d tail enabled chars =>
    obtain ⟨hrun, -, left⟩ := (symbolEnabled_iff _ s).mp enabled
    exact ⟨hrun, left⟩

theorem SymbolTurn.advance {s t : State} (turn : SymbolTurn s t) : ∃ vs rs, SymbolAdvance vs rs s t := by
  cases turn with
  | pair b1 b0 tail enabled chars => exact ⟨_, _, emitLevel_advance _ _ s⟩
  | byte d tail enabled chars => exact ⟨_, _, emitByte_advance _ s⟩

/-- What a symbol fetched and decoded runs (30_encoding.md R58, R59). -/
theorem symbolTurn_of_fetch {s t : State} {x : Item} {i : Instr} (hx : fetchSymbol s = .ok x) (hi : decode x = .ok i)
    (h : exec i s = .next t) : SymbolTurn s t := by
  unfold fetchSymbol at hx
  split at hx <;> cases hx
  · rename_i hs chars
    obtain ⟨b1, b0, rfl, rfl, rfl⟩ := decode_sym2_eq_ok_iff.mp hi
    obtain ⟨enabled, rfl⟩ := pairStep_next.mp (exec_pairOf b1 b0 s ▸ h)
    exact .pair b1 b0 _ enabled chars
  · rename_i tail hs chars
    obtain ⟨d, rfl, item⟩ := decode_sym8_eq_ok_iff.mp hi
    obtain ⟨enabled, rfl⟩ := execByte_next.mp h
    exact .byte d tail enabled (sym8Of_eq_iff.mp item ▸ chars)

/-- The encoder's turn answers in one of two ways: the VALIDATE step or a symbol step. -/
theorem encoderStep_next {s t : State} :
    encoderStep s = .next t ↔
      (s.run = .busy .validate ∧ t = admitFrame (validateFrame s.input s.scheme) s) ∨ SymbolTurn s t := by
  constructor
  · intro h
    obtain ⟨phase, hrun⟩ := (busy_eq_true_iff s).mp (encoderStep_effect h).1
    cases phase with
    | validate =>
      cases (encoderStep_validate hrun).symm.trans h
      exact .inl ⟨hrun, rfl⟩
    | symbols =>
      simp only [encoderStep, hrun, fetchItem] at h
      split at h
      · cases h
      · split at h
        · exact .inr (symbolTurn_of_fetch ‹_› ‹_› h)
        · cases h
  · rintro (⟨hrun, rfl⟩ | turn)
    · exact encoderStep_validate hrun
    · cases turn with
      | pair b1 b0 tail enabled chars =>
        obtain ⟨hrun, hs, -⟩ := (symbolEnabled_iff _ s).mp enabled
        have decoded : decode (.sym2 (charOf b1) (charOf b0)) = .ok (pairOf b1 b0) :=
          decode_sym2_eq_ok_iff.mpr ⟨b1, b0, rfl, rfl, rfl⟩
        have fetched : fetchSymbol s = .ok (.sym2 (charOf b1) (charOf b0)) := by simp [fetchSymbol, hs, chars]
        rw [encoderStep_of_fetch (phase := .symbols) hrun fetched decoded, exec_pairOf]
        exact pairStep_next.mpr ⟨enabled, rfl⟩
      | byte d tail enabled chars =>
        obtain ⟨hrun, hs, -⟩ := (symbolEnabled_iff _ s).mp enabled
        have fetched : fetchSymbol s = .ok (sym8Of d) := by
          simp [fetchSymbol, hs, chars, sym8Of, digitChars, BitVec.getLsbD]
        rw [encoderStep_of_fetch (phase := .symbols) hrun fetched (decodeInvertsEncode (.byte d) rfl)]
        exact execByte_next.mpr ⟨enabled, rfl⟩

/-- With the encoder's turn next, as an event or because nothing is pending, a step is that turn (log 1). -/
theorem step_of_encoderTurn {s : State} (hp : s.pending = [] ∨ ∃ rest, s.pending = .encoder :: rest) :
    step s = encoderStep { s with pending := s.pending.tail } := by
  rcases hp with hp | ⟨rest, hp⟩
  · have same : ({ s with pending := [] } : State) = s := by rw [← hp]
    rw [step, hp]; exact congrArg encoderStep same.symm
  · rw [step, hp]; rfl

/-- Settles O54: in PHASE SYMBOLS the encoder's turn is a symbol step, and every symbol step is an advance. -/
theorem symbolStepsAdvanceByOne : Obligations.SymbolStepsAdvanceByOne := by
  unfold Obligations.SymbolStepsAdvanceByOne
  intro s t hrun hp h
  rw [step_of_encoderTurn hp] at h
  obtain ⟨validate, -⟩ | turn := encoderStep_next.mp h
  · cases hrun.symm.trans validate
  · obtain ⟨vs, rs, adv⟩ := turn.advance
    have advanced : t.symIdx = s.symIdx + 1 := adv.symIdx
    have run : t.run = if t.symIdx = symbolCount s then .done else .busy .symbols := by
      rw [adv.run, advanced, ← hrun]; rfl
    have last : t.run = .done ↔ t.symIdx = symbolCount s := by
      rw [run]
      split_ifs with h <;> simp [h]
    exact ⟨advanced, last, by rw [run]; split <;> simp⟩

/-! ### How BUSY ends -/

/-- The VALIDATE step ends a frame in DONE or ERROR, or goes on to the symbols (41_validator.md R92). -/
theorem admitFrame_run (v : Verdict) (s : State) :
    (admitFrame v s).run = .done ∨ (admitFrame v s).run = .error ∨ (admitFrame v s).run = .busy .symbols := by
  unfold admitFrame
  split
  · exact .inr (.inl rfl)
  · split
    · exact .inl rfl
    · exact .inr (.inr rfl)

theorem encoderStep_run {s t : State} (h : encoderStep s = .next t) :
    t.busy = true ∨ t.run = .done ∨ (t.run = .error ∧ s.run = .busy .validate) := by
  have busy {phase : Phase} (ht : t.run = .busy phase) : t.busy = true := (busy_eq_true_iff t).mpr ⟨phase, ht⟩
  obtain ⟨hrun, rfl⟩ | turn := encoderStep_next.mp h
  · rcases admitFrame_run (validateFrame s.input s.scheme) s with done | error | symbols
    · exact .inr (.inl done)
    · exact .inr (.inr ⟨error, hrun⟩)
    · exact .inl (busy symbols)
  · obtain ⟨vs, rs, adv⟩ := turn.advance
    rcases adv.run_cases turn.enabled.1 with done | ⟨symbols, -⟩
    · exact .inr (.inl done)
    · exact .inl (busy symbols)

/-- While BUSY the one access that answers is a read, which leaves STATE as it is (70_reset_and_hazards.md R151). -/
theorem hostStep_access_run_of_busy {key : Byte} {ops : List Word} {s t : State} (hb : s.busy = true)
    (h : hostStep (.access key ops) s = .next t) : t.run = s.run := by
  have read {i : Instr} (hi : isRead i = true) (he : exec i s = .next t) : t.run = s.run := by
    obtain ⟨w, rfl, -⟩ := readsAreIdempotent i s t hi he
    rfl
  have refused {k : State → Out} (he : unlessBusy s k = .next t) : t.run = s.run := by
    rw [unlessBusy_of_busy k hb] at he; cases he
  cases hd : decode (.access key ops) with
  | error e => exact refused (hostStep_of_error hd s ▸ h)
  | ok i =>
    have hx := encode_of_decodeAccess hd
    rw [hostStep_of_decode hd] at h
    cases i with
    | wrCmd c => rw [exec, execWrCmd] at h; exact refused h
    | wrInData v => rw [exec, execWrInData] at h; exact refused h
    | rdStatus | rdErrInfo | rdInLen | rdOutLen | rdTraceLen | rdSymIdx | rdPrevLevel | rdRunningSum | rdPrevCode
    | rdPrevSum => exact read rfl h
    | rdIn k | rdOut k => exact read rfl h
    | rdTr k f => exact read rfl h
    | nop | encode2b1q | encode8b6t | clear | pair00 | pair01 | pair10 | pair11 | validate => cases hx
    | byte d => cases hx

/-- Settles O56: while BUSY a command word is refused and an access leaves STATE, so only the encoder's turn and the
reset input can end the frame. -/
theorem busyEndsOnlyByEncoderOrReset : Obligations.BusyEndsOnlyByEncoderOrReset := by
  unfold Obligations.BusyEndsOnlyByEncoderOrReset
  intro s t hb h
  have encoder (hp : s.pending = [] ∨ ∃ rest, s.pending = .encoder :: rest) :
      t.busy = true ∨ (t.run = .done ∨ (t.run = .error ∧ s.run = .busy .validate)) := by
    rw [step_of_encoderTurn hp] at h
    exact (encoderStep_run h :)
  cases hp : s.pending with
  | nil => exact (encoder (.inl hp)).imp_right fun ends => .inl ⟨ends, .inl rfl⟩
  | cons e rest =>
    cases e with
    | encoder => exact (encoder (.inr ⟨rest, hp⟩)).imp_right fun ends => .inl ⟨ends, .inr ⟨rest, rfl⟩⟩
    | reset =>
      cases (step_of_reset hp).symm.trans h
      exact .inr (.inr ⟨rfl, rest, rfl⟩)
    | command c =>
      have refused := exec_wrCmd_of_busy (s := { s with pending := rest }) c hb
      cases refused.symm.trans ((step_of_commandWord (.inl hp)).symm.trans h)
    | access key ops =>
      rw [step, hp] at h
      have same := hostStep_access_run_of_busy (s := { s with pending := rest }) hb h
      left
      rw [State.busy, same]
      exact hb

/-! ### What the encoder's turn does not see -/

/-- The same block with another capacity, other events to come and other words received: the model's own fields
(logs 1, 2, 3). -/
def State.withOwn (c : Config) (events : List Event) (words : List Word) (s : State) : State :=
  { s with cfg := c, pending := events, replies := words }

theorem admitFrame_withOwn (c : Config) (events : List Event) (words : List Word) (v : Verdict) (s : State) :
    admitFrame v (s.withOwn c events words) = (admitFrame v s).withOwn c events words := by
  cases v with
  | failure kind info => rfl
  | valid => by_cases empty : s.input.length = 0 <;> simp only [admitFrame, State.withOwn, empty] <;> rfl

theorem SymbolTurn.withOwn {s t : State} (turn : SymbolTurn s t) (c : Config) (events : List Event)
    (words : List Word) : SymbolTurn (s.withOwn c events words) (t.withOwn c events words) := by
  cases turn with
  | pair b1 b0 tail enabled chars =>
    have same := SymbolTurn.pair (s := s.withOwn c events words) b1 b0 tail enabled chars
    rw [emitLevel_eq] at same ⊢
    exact same
  | byte d tail enabled chars =>
    have same := SymbolTurn.byte (s := s.withOwn c events words) d tail enabled chars
    rw [emitByte_eq] at same ⊢
    exact same

/-- The encoder's turn neither reads nor writes the model's own fields. -/
theorem encoderStep_withOwn {s t : State} (h : encoderStep s = .next t) (c : Config) (events : List Event)
    (words : List Word) : encoderStep (s.withOwn c events words) = .next (t.withOwn c events words) := by
  rw [encoderStep_next] at h ⊢
  obtain ⟨hrun, rfl⟩ | turn := h
  · exact .inl ⟨hrun, (admitFrame_withOwn c events words _ s).symm⟩
  · exact .inr (turn.withOwn c events words)

/-- So a turn leaves them as they were. -/
theorem encoderStep_own {s t : State} (h : encoderStep s = .next t) : t.withOwn s.cfg s.pending s.replies = t :=
  Host.Outcome.next.inj ((encoderStep_withOwn h s.cfg s.pending s.replies).symm.trans h)

theorem step_of_nothing_pending {s : State} (hp : s.pending = []) : step s = encoderStep s := by
  rw [step, hp]

/-- With nothing pending a run is the encoder's turns, so it too is the same beside other fields of the model's own. -/
theorem run_withOwn {s t : State} {k : Nat} (hp : s.pending = []) (h : Host.Core.run Sys2Proof.core k s = .next t)
    (c : Config) (words : List Word) :
    Host.Core.run Sys2Proof.core k (s.withOwn c [] words) = .next (t.withOwn c [] words) := by
  induction k generalizing s with
  | zero => cases h; rfl
  | succ k ih =>
    obtain ⟨u, stepped, rest⟩ := run_succ_inv h
    have pending : u.pending = [] := by rw [step_pending stepped, hp]; rfl
    have turn := encoderStep_withOwn (step_of_nothing_pending hp ▸ stepped) c [] words
    rw [run_succ_next ((step_of_nothing_pending rfl).trans turn)]
    exact ih pending rest

theorem run_own {s t : State} {k : Nat} (hp : s.pending = []) (h : Host.Core.run Sys2Proof.core k s = .next t) :
    t.withOwn s.cfg [] s.replies = t := by
  have same := run_withOwn hp h s.cfg s.replies
  rw [← hp] at same ⊢
  exact Host.Outcome.next.inj (same.symm.trans h)

/-- Settles O50: an encoder event is the turn that is taken with nothing pending, and a STATUS read changes `replies`
alone, which no turn reads. -/
theorem statusPollsDoNotDisturbAFrame : Obligations.StatusPollsDoNotDisturbAFrame := by
  unfold Obligations.StatusPollsDoNotDisturbAFrame
  intro s t events kinds h
  induction events generalizing s with
  | nil => cases h; exact ⟨_, rfl, rfl⟩
  | cons e es ih =>
    obtain ⟨kind, later⟩ := List.forall_mem_cons.mp kinds
    obtain ⟨s', stepped, rest⟩ := run_succ_inv h
    rw [List.length_cons] at h
    rcases kind with rfl | rfl
    · have pending : s'.pending = es := step_pending stepped
      subst pending
      have turn : step { s with pending := [] } = .next { s' with pending := [] } := by
        rw [← encoderStep_own stepped]
        exact encoderStep_withOwn stepped s.cfg [] s.replies
      obtain ⟨u, turns, same⟩ := ih s' later rest
      refine ⟨u, ?_, same⟩
      rw [List.count_cons_self, run_succ_next turn]
      exact turns
    · cases stepped
      obtain ⟨u, turns, same⟩ := ih (giveReply (statusWord s) s) later rest
      refine ⟨u.withOwn s.cfg [] s.replies, ?_, same.trans (congrArg State.block (run_own rfl turns)).symm⟩
      rw [List.count_cons_of_ne (by decide)]
      exact run_withOwn rfl turns s.cfg s.replies

/-- Settles O51: the two frames start in one state but for the model's own fields. -/
theorem framesAreIndependent : Obligations.FramesAreIndependent := by
  unfold Obligations.FramesAreIndependent
  intro sch s1 s2 hb1 hb2 hp1 hp2 input
  have same : startFrame sch s2 = (startFrame sch s1).withOwn s2.cfg [] s2.replies := by
    rw [← hp2]
    simp [startFrame, State.withOwn, input]
  refine ⟨_, _, exec_encodeCommand sch hb1, exec_encodeCommand sch hb2,
    fun k u1 h => ⟨u1.withOwn s2.cfg [] s2.replies, ?_, rfl, rfl, rfl, rfl, rfl, rfl⟩⟩
  rw [same]
  exact run_withOwn (s := startFrame sch s1) hp1 h _ _

end Sys2Proof.Machine
end

section
/-! PROOFS, 40_host_interface.md, `Encode(IN, s)`. Every symbol step keeps the result the frame is on course for, so at
DONE OUT and TRACE are that result (R79, R80). -/

namespace Sys2Proof.Machine

/-! ### The result a frame is on course for -/

/-- What the symbols from SYM_IDX on will add to OUT and TRACE, folded from the carry the block holds. -/
def restOfFrame (s : State) : FrameResult :=
  match s.scheme with
  | .twoB1Q => encodePairs (framePairs (inputAtSymbol s)) s.symIdx s.prevLevel
  | .eightB6T => encodeBytes (frameBytes (inputAtSymbol s)) s.symIdx s.runningSum s.prevCode

/-- OUT and TRACE with what the rest of the frame will add. -/
def foretold (s : State) : FrameResult :=
  { output := s.output ++ (restOfFrame s).output, trace := s.trace ++ (restOfFrame s).trace }

theorem restOfFrame_of_no_symbols {s : State} (h : inputAtSymbol s = []) :
    restOfFrame s = { output := [], trace := [] } := by
  cases hs : s.scheme <;> simp [restOfFrame, hs, h, framePairs, frameBytes, encodePairs, encodeBytes]

theorem charBit_charOf (b : Bool) : charBit (charOf b) = b := by cases b <;> rfl

theorem framePairs_pair (b1 b0 : Bool) (tail : List Byte) :
    framePairs (charOf b1 :: charOf b0 :: tail) = (b1, b0) :: framePairs tail := by
  simp [framePairs, charBit_charOf]

/-- A byte is the sum of its binary digits (30_encoding.md R59). -/
theorem byte_digits : ∀ d : Byte,
    (d.toNat.testBit 7).toNat * 128 + (d.toNat.testBit 6).toNat * 64 + (d.toNat.testBit 5).toNat * 32 +
      (d.toNat.testBit 4).toNat * 16 + (d.toNat.testBit 3).toNat * 8 + (d.toNat.testBit 2).toNat * 4 +
      (d.toNat.testBit 1).toNat * 2 + (d.toNat.testBit 0).toNat = d.toNat := by decide

theorem frameBytes_byte (d : Byte) (tail : List Byte) :
    frameBytes (digitChars d.toNat 8 ++ tail) = d.toNat :: frameBytes tail := by
  simp only [digitChars, List.cons_append, List.nil_append, frameBytes, charBit_charOf, byte_digits]

/-- The characters after the symbol are the next symbol's on. -/
theorem SymbolAdvance.inputAtSymbol_eq {vs : List Int} {rs : List TraceRecord} {s t : State}
    (adv : SymbolAdvance vs rs s t) : inputAtSymbol t = (inputAtSymbol s).drop (symbolWidth s.scheme) := by
  rw [inputAtSymbol, inputAtSymbol, adv.input, adv.scheme, adv.symIdx, List.drop_drop, Nat.mul_succ]

/-- What a symbol step adds to OUT and TRACE is the first of what the rest of the frame adds
(40_host_interface.md R80). -/
theorem SymbolTurn.restOfFrame_eq {s t : State} (turn : SymbolTurn s t)
    (outLen : s.output.length = valuesPerSymbol s.scheme * s.symIdx) :
    ∃ vs rs, SymbolAdvance vs rs s t ∧
      restOfFrame s = { output := vs ++ (restOfFrame t).output
                        trace := rs.map (TraceRecord.stamp s.scheme) ++ (restOfFrame t).trace } := by
  cases turn with
  | pair b1 b0 tail enabled chars =>
    obtain ⟨-, hs, -⟩ := (symbolEnabled_iff _ s).mp enabled
    have adv := emitLevel_advance (pairValue b1 b0) (table2B1Q b1 b0 (isPreviousPositive s.prevLevel)) s
    have next := adv.inputAtSymbol_eq.trans (show _ = tail by rw [chars, hs]; rfl)
    refine ⟨_, _, adv, ?_⟩
    simp only [restOfFrame, adv.scheme, adv.symIdx, next, chars, hs, framePairs_pair, encodePairs]
    simp [emitLevel_eq, outLen, hs, valuesPerSymbol]
  | byte d tail enabled chars =>
    obtain ⟨-, hs, -⟩ := (symbolEnabled_iff _ s).mp enabled
    have adv := emitByte_advance d.toNat s
    have next := adv.inputAtSymbol_eq.trans (show _ = tail by rw [chars, hs]; rfl)
    refine ⟨_, _, adv, ?_⟩
    simp only [restOfFrame, adv.scheme, adv.symIdx, next, chars, hs, frameBytes_byte, encodeBytes]
    simp [emitByte_eq, outLen, hs, valuesPerSymbol, Nat.mul_succ]

/-- How many values a symbol step adds (10_state.md R24). -/
theorem SymbolTurn.output_length {s t : State} (turn : SymbolTurn s t)
    (outLen : s.output.length = valuesPerSymbol s.scheme * s.symIdx) :
    t.output.length = valuesPerSymbol t.scheme * t.symIdx := by
  cases turn with
  | pair b1 b0 tail enabled chars | byte d tail enabled chars =>
    obtain ⟨-, hs, -⟩ := (symbolEnabled_iff _ s).mp enabled
    simp only [hs, valuesPerSymbol] at outLen
    simp [emitLevel_eq, emitByte_eq, outLen, hs, valuesPerSymbol, Nat.mul_succ]

/-! ### The run of a frame -/

/-- A frame past VALIDATE on course for the result `r`: in PHASE SYMBOLS with symbols left, or DONE. -/
structure OnCourse (inp : List Byte) (sch : Scheme) (r : FrameResult) (s : State) : Prop where
  pending : s.pending = []
  input : s.input = inp
  scheme : s.scheme = sch
  errCode : s.errCode = .none
  outLen : s.output.length = valuesPerSymbol s.scheme * s.symIdx
  foretold : foretold s = r
  run : (s.run = .busy .symbols ∧ FrameUnderWay s) ∨ (s.run = .done ∧ s.symIdx = inp.length / symbolWidth sch)

/-- Symbols are left after a symbol step that does not set DONE. -/
theorem SymbolAdvance.frameUnderWay {vs : List Int} {rs : List TraceRecord} {s t : State}
    (adv : SymbolAdvance vs rs s t) (frame : FrameUnderWay s) (notLast : t.symIdx ≠ symbolCount t) :
    FrameUnderWay t where
  binary := adv.input ▸ frame.binary
  aligned := by rw [adv.input, adv.scheme]; exact frame.aligned
  symbolsLeft := by
    have := frame.symbolsLeft
    rw [adv.symIdx, adv.symbolCount_eq] at notLast ⊢
    omega
  preliminary := by simp [adv.symIdx]

section

variable {inp : List Byte} {sch : Scheme} {r : FrameResult} {s : State}

/-- The next turn of a frame on course keeps it on course and uses up one of the turns left. -/
theorem OnCourse.step (course : OnCourse inp sch r s) (hrun : s.run = .busy .symbols) (frame : FrameUnderWay s) :
    ∃ t, Machine.step s = .next t ∧ turnsLeft s = turnsLeft t + 1 ∧ OnCourse inp sch r t := by
  obtain ⟨-, -, t, turn, -⟩ := frame.encoderStep_advance hrun
  obtain ⟨validate, -⟩ | symbol := encoderStep_next.mp turn
  · cases hrun.symm.trans validate
  obtain ⟨vs, rs, adv, rest⟩ := symbol.restOfFrame_eq course.outLen
  have stepped : Machine.step s = .next t := (step_of_nothing_pending course.pending).trans turn
  refine ⟨t, stepped, adv.turnsLeft_eq hrun frame.symbolsLeft, ?_⟩
  exact {
    pending := by rw [step_pending stepped, course.pending]; rfl
    input := adv.input.trans course.input
    scheme := adv.scheme.trans course.scheme
    errCode := adv.errCode.trans course.errCode
    outLen := symbol.output_length course.outLen
    foretold := by rw [← course.foretold]; simp [Machine.foretold, adv.output, adv.trace, rest]
    run := by
      have count : symbolCount s = inp.length / symbolWidth sch := by rw [symbolCount, course.input, course.scheme]
      by_cases last : s.symIdx + 1 = symbolCount s
      · exact .inr ⟨by rw [adv.run, if_pos last], by rw [adv.symIdx, last, count]⟩
      · refine .inl ⟨by rw [adv.run, if_neg last, hrun], adv.frameUnderWay frame ?_⟩
        rwa [adv.symIdx, adv.symbolCount_eq] }

/-- A frame on course is DONE after exactly the turns left, BUSY at every step before. -/
theorem OnCourse.run_turnsLeft (course : OnCourse inp sch r s) :
    (∃ t, Host.Core.run Sys2Proof.core (turnsLeft s) s = .next t ∧ t.run = .done ∧ OnCourse inp sch r t) ∧
      ∀ k, k < turnsLeft s → ∃ u : State, Host.Core.run Sys2Proof.core k s = .next u ∧ u.busy = true := by
  generalize hn : turnsLeft s = n
  induction n generalizing s with
  | zero =>
    rcases course.run with ⟨hrun, frame⟩ | ⟨hrun, -⟩
    · have := frame.symbolsLeft
      rw [turnsLeft_of_symbols hrun] at hn
      omega
    · exact ⟨⟨s, rfl, hrun, course⟩, nofun⟩
  | succ n ih =>
    rcases course.run with ⟨hrun, frame⟩ | ⟨hrun, -⟩
    · obtain ⟨t, stepped, turns, onCourse⟩ := course.step hrun frame
      obtain ⟨ends, before⟩ := ih onCourse (by omega)
      refine ⟨by rwa [run_succ_next stepped], fun k hk => ?_⟩
      cases k with
      | zero => exact ⟨s, rfl, (busy_eq_true_iff s).mpr ⟨_, hrun⟩⟩
      | succ k =>
        rw [run_succ_next stepped]
        exact before k (by omega)
    · simp [turnsLeft, hrun] at hn

/-- At DONE OUT and TRACE are the whole result: the length is a multiple of w, so no character is left. -/
theorem OnCourse.result_of_done (course : OnCourse inp sch r s) (done : s.run = .done)
    (aligned : inp.length % symbolWidth sch = 0) :
    s.output = r.output ∧ s.trace = r.trace ∧ s.symIdx = inp.length / symbolWidth sch := by
  rcases course.run with ⟨hrun, -⟩ | ⟨-, count⟩
  · cases done.symm.trans hrun
  · have noneLeft : inputAtSymbol s = [] := by
      rw [inputAtSymbol, course.scheme, course.input, count, Nat.mul_div_cancel' (Nat.dvd_of_mod_eq_zero aligned)]
      exact List.drop_length
    rw [← course.foretold, Machine.foretold, restOfFrame_of_no_symbols noneLeft]
    simp [count]

end

/-! ### `Encode(IN, s)` and the VALIDATE step -/

theorem encodeFrame_eq_error_iff {inp : List Byte} {sch : Scheme} {kind : ErrCode} {info : Nat} :
    encodeFrame inp sch = .error (kind, info) ↔ validateFrame inp sch = .failure kind info := by
  cases hv : validateFrame inp sch with
  | failure kind' info' => simp [encodeFrame, hv]
  | valid => simp only [encodeFrame, hv]; split <;> simp

theorem validateFrame_of_encodeFrame_ok {inp : List Byte} {sch : Scheme} {r : FrameResult}
    (h : encodeFrame inp sch = .ok r) : validateFrame inp sch = .valid := by
  cases hv : validateFrame inp sch with
  | valid => rfl
  | failure kind info => cases (encodeFrame_eq_error_iff.mpr hv).symm.trans h

theorem aligned_of_valid {inp : List Byte} {sch : Scheme} (h : validateFrame inp sch = .valid) :
    inp.length % symbolWidth sch = 0 := by
  by_cases empty : inp.length = 0
  · simp [empty]
  · exact (validateFrame_valid h empty).2

/-- The VALIDATE step of a valid frame leaves it on course for `Encode(IN, s)`. -/
theorem onCourse_admitFrame {sch : Scheme} {s : State} {r : FrameResult} (hp : s.pending = [])
    (h : encodeFrame s.input sch = .ok r) : OnCourse s.input sch r (admitFrame .valid (startFrame sch s)) := by
  have valid := validateFrame_of_encodeFrame_ok h
  by_cases empty : s.input.length = 0
  · have done : admitFrame .valid (startFrame sch s) = { startFrame sch s with run := .done } := by
      simp [admitFrame, empty]
    have noneLeft : inputAtSymbol { startFrame sch s with run := .done } = [] := by
      simp [inputAtSymbol, List.length_eq_zero_iff.mp empty]
    simp only [encodeFrame, valid, empty, if_true, Except.ok.injEq] at h
    rw [done]
    exact {
      pending := hp, input := rfl, scheme := rfl, errCode := rfl, outLen := rfl
      foretold := by rw [← h, foretold, restOfFrame_of_no_symbols noneLeft]; rfl
      run := .inr ⟨rfl, by simp [empty]⟩ }
  · obtain ⟨binary, aligned⟩ := validateFrame_valid valid empty
    have symbolsLeft : 0 < s.input.length / symbolWidth sch :=
      Nat.div_pos (Nat.le_of_dvd (Nat.pos_of_ne_zero empty) (Nat.dvd_of_mod_eq_zero aligned)) (symbolWidth_pos sch)
    simp only [encodeFrame, valid, empty, if_false, Except.ok.injEq] at h
    simp only [admitFrame, startFrame_input, empty, if_false]
    exact {
      pending := hp, input := rfl, scheme := rfl, errCode := rfl, outLen := rfl
      foretold := by rw [← h]; cases sch <;> rfl
      run := .inl ⟨rfl, binary, aligned, symbolsLeft, fun _ => rfl⟩ }

/-- A valid frame takes 1 turn and then m (40_host_interface.md R79). -/
theorem turnsLeft_of_valid {sch : Scheme} {s : State} (valid : validateFrame s.input sch = .valid) :
    turnsLeft (admitFrame .valid (startFrame sch s)) = s.input.length / symbolWidth sch := by
  have whole : turnsLeft (startFrame sch s) = 1 + s.input.length / symbolWidth sch := by
    simp [turnsLeft, valid, symbolCount]
  have one : turnsLeft (startFrame sch s) =
      turnsLeft (admitFrame (validateFrame s.input sch) (startFrame sch s)) + 1 :=
    turnsLeft_admitFrame (s := startFrame sch s) rfl rfl
  rw [valid] at one
  omega

/-- Settles O48: VALIDATE raises the failure or puts the frame on course, with m turns left. -/
theorem frameRunComputesEncode : Obligations.FrameRunComputesEncode := by
  unfold Obligations.FrameRunComputesEncode
  intro sch s hb hp
  have stepped : step (startFrame sch s) =
      .next (admitFrame (validateFrame s.input sch) (startFrame sch s)) :=
    (step_of_nothing_pending (s := startFrame sch s) hp).trans (encoderStep_validate rfl)
  refine ⟨_, exec_encodeCommand sch hb, fun r h => ?_, fun kind info h => ?_⟩
  · have valid := validateFrame_of_encodeFrame_ok h
    have course := onCourse_admitFrame hp h
    rw [valid] at stepped
    obtain ⟨⟨t, run, done, courseT⟩, before⟩ := course.run_turnsLeft
    rw [turnsLeft_of_valid valid] at run before
    obtain ⟨output, trace, symIdx⟩ := courseT.result_of_done done (aligned_of_valid valid)
    rw [Nat.add_comm]
    refine ⟨⟨t, (run_succ_next stepped _).trans run, done, output, trace, symIdx, courseT.input, courseT.scheme,
      courseT.errCode⟩, fun k hk => ?_⟩
    cases k with
    | zero => exact ⟨_, rfl, rfl⟩
    | succ k =>
      rw [run_succ_next stepped]
      exact before k (by omega)
  · rw [encodeFrame_eq_error_iff.mp h] at stepped
    exact ⟨_, run_succ_next stepped 0, rfl, rfl, zext32_toNat _, rfl, rfl, rfl, rfl, rfl⟩

end Sys2Proof.Machine
end

section
/-! PROOFS, 41_validator.md. What `Validate(IN, s)` answers for each kind of frame (R87–R90), and the next state
VALIDATE leaves on that verdict (R92). -/

namespace Sys2Proof.Machine

/-! ### The verdict on a frame -/

theorem isBinary_iff (c : Byte) : isBinary c = true ↔ c = 0x30#8 ∨ c = 0x31#8 := by simp [isBinary]

theorem firstInvalid_of_binary {cs : List Byte} (binary : ∀ c ∈ cs, c = 0x30#8 ∨ c = 0x31#8) (k : Nat) :
    firstInvalid cs k = none := by
  induction cs generalizing k with
  | nil => rfl
  | cons c cs ih =>
    obtain ⟨head, tail⟩ := List.forall_mem_cons.mp binary
    rw [firstInvalid, if_pos ((isBinary_iff c).mpr head)]
    exact ih tail (k + 1)

/-- The search counts from `n`, so it finds the invalid character at index k as n + k. -/
theorem firstInvalid_of_first {cs : List Byte} {k : Nat} (n : Nat)
    (invalid : ∃ c, cs[k]? = some c ∧ c ≠ 0x30#8 ∧ c ≠ 0x31#8)
    (before : ∀ j < k, cs[j]? = some 0x30#8 ∨ cs[j]? = some 0x31#8) : firstInvalid cs n = some (n + k) := by
  induction cs generalizing k n with
  | nil => simp at invalid
  | cons c cs ih =>
    cases k with
    | zero =>
      have notBinary : ¬ isBinary c = true := by simpa [isBinary_iff] using invalid
      rw [firstInvalid, if_neg notBinary, Nat.add_zero]
    | succ k =>
      have head : isBinary c = true := by simpa [isBinary_iff] using before 0 k.succ_pos
      rw [firstInvalid, if_pos head, ih (n + 1) (by simpa using invalid)
        (fun j hj => by simpa using before (j + 1) (Nat.succ_lt_succ hj)), Nat.add_right_comm, Nat.add_assoc]

/-- Characters come before the length (92_eei_decisions.md D9). -/
theorem validateFrame_of_invalid {inp : List Byte} {k : Nat} (sch : Scheme) (h : firstInvalid inp 0 = some k) :
    validateFrame inp sch = .failure .invalidCharacter k := by
  have nonempty : inp.length ≠ 0 := by
    intro empty
    simp [List.length_eq_zero_iff.mp empty, firstInvalid] at h
  rw [validateFrame, if_neg nonempty, h]

theorem validateFrame_of_binary {inp : List Byte} (sch : Scheme) (binary : ∀ c ∈ inp, c = 0x30#8 ∨ c = 0x31#8) :
    validateFrame inp sch =
      if inp.length % symbolWidth sch = 0 then .valid else .failure (wrongLength sch) inp.length := by
  by_cases empty : inp.length = 0
  · simp [validateFrame, empty]
  · rw [validateFrame, if_neg empty, firstInvalid_of_binary binary]

/-! ### The VALIDATE step on a verdict -/

section

variable {s : State} (hrun : s.run = .busy .validate)
include hrun

theorem exec_validate : exec .validate s = .next (admitFrame (validateFrame s.input s.scheme) s) :=
  execValidate_next.mpr ⟨hrun, rfl⟩

/-- A failure is reported in ERR_CODE and ERR_INFO, and nothing but STATE changes besides (41_validator.md R89, R90). -/
theorem exec_validate_of_failure {kind : ErrCode} {n : Nat}
    (failed : validateFrame s.input s.scheme = .failure kind n) :
    ∃ info : Word, exec .validate s = .next { s with run := .error, errCode := kind, errInfo := info } ∧
      (n < 2 ^ 32 → info.toNat = n) := by
  rw [exec_validate hrun, failed]
  exact ⟨_, rfl, zext32_toNat _⟩

/-- Legal characters of the wrong length fail under their scheme's own kind (41_validator.md R90). -/
theorem exec_validate_of_misaligned {sch : Scheme} (binary : ∀ c ∈ s.input, c = 0x30#8 ∨ c = 0x31#8)
    (hs : s.scheme = sch) (misaligned : s.input.length % symbolWidth sch ≠ 0) :
    ∃ info : Word,
      exec .validate s = .next { s with run := .error, errCode := wrongLength sch, errInfo := info } ∧
      (s.input.length < 2 ^ 32 → info.toNat = s.input.length) :=
  exec_validate_of_failure hrun (by rw [hs, validateFrame_of_binary sch binary, if_neg misaligned])

/-- An aligned non-empty frame of legal characters is admitted (41_validator.md R92). -/
theorem exec_validate_of_aligned (nonempty : s.input ≠ []) (binary : ∀ c ∈ s.input, c = 0x30#8 ∨ c = 0x31#8)
    (aligned : s.input.length % symbolWidth s.scheme = 0) :
    exec .validate s = .next { s with
      run := .busy .symbols
      trace := s.trace ++ [(inputAnalysisRecord s.input.length (symbolCount s)).stamp s.scheme,
        (groupingRecord (symbolCount s)).stamp s.scheme] } := by
  have length : s.input.length ≠ 0 := by simpa using nonempty
  rw [exec_validate hrun, validateFrame_of_binary _ binary, if_pos aligned, admitFrame, if_neg length]
  simp [traceAppend]

end

/-! ### The statements -/

/-- Settles O18: the empty frame is valid, and VALIDATE of a valid empty frame sets DONE alone. -/
theorem emptyFrameIsDone : Obligations.EmptyFrameIsDone := by
  unfold Obligations.EmptyFrameIsDone
  intro s hrun empty
  have valid : validateFrame s.input s.scheme = .valid := by simp [validateFrame, empty]
  rw [exec_validate hrun, valid, admitFrame, if_pos (by simp [empty])]

/-- Settles O19: w is the scheme's symbol width, and the two records are the recorder's, stamped with the scheme. -/
theorem validFrameGetsPreliminaryRecords : Obligations.ValidFrameGetsPreliminaryRecords := by
  unfold Obligations.ValidFrameGetsPreliminaryRecords
  intro s w hrun scheme nonempty binary aligned
  have width : w = symbolWidth s.scheme := by rcases scheme with ⟨hs, rfl⟩ | ⟨hs, rfl⟩ <;> rw [hs] <;> rfl
  subst width
  exact exec_validate_of_aligned hrun nonempty binary aligned

/-- Settles O20: the search for the first invalid character ends at its index, before any length is checked. -/
theorem firstInvalidCharacterIsReported : Obligations.FirstInvalidCharacterIsReported := by
  unfold Obligations.FirstInvalidCharacterIsReported
  intro s k hrun invalid before
  have found : firstInvalid s.input 0 = some k := by simpa using firstInvalid_of_first 0 invalid before
  exact exec_validate_of_failure hrun (validateFrame_of_invalid s.scheme found)

/-- Settles O21: the length check fails under each scheme's own kind. -/
theorem wrongLengthIsReported : Obligations.WrongLengthIsReported := by
  unfold Obligations.WrongLengthIsReported
  intro s hrun binary
  exact ⟨exec_validate_of_misaligned (sch := .twoB1Q) hrun binary,
    exec_validate_of_misaligned (sch := .eightB6T) hrun binary⟩

end Sys2Proof.Machine
end

section
/-! PROOFS, 42_pair_encoder_2b1q.md. The level of a pair (R94–R96), the whole next state of a pair step (R93, R97–R102),
and why only a frame's first pair finds PREV_LEVEL neutral (R103). -/

namespace Sys2Proof.Machine

/-! ### The level of a pair -/

/-- The table row of a pair as the pair operations state it, by the sign of PREV_LEVEL (42_pair_encoder_2b1q.md R94,
R98–R101). -/
theorem table2B1Q_of_prevLevel (b1 b0 : Bool) (prev : Int) :
    table2B1Q b1 b0 (isPreviousPositive prev) =
      if 0 < prev then table2B1Q b1 b0 true else table2B1Q b1 b0 false := by
  by_cases positive : 0 < prev <;> simp [isPreviousPositive, positive]

theorem table2B1Q_natAbs : ∀ b1 b0 isPos : Bool, (table2B1Q b1 b0 isPos).natAbs = 1 + 2 * b0.toNat := by decide

theorem table2B1Q_pos_iff : ∀ b1 b0 isPos : Bool, 0 < table2B1Q b1 b0 isPos ↔ (b1 = false ↔ isPos = true) := by decide

theorem table2B1Q_ne_zero (b1 b0 isPos : Bool) : table2B1Q b1 b0 isPos ≠ 0 := by
  have magnitude := table2B1Q_natAbs b1 b0 isPos
  omega

/-! ### The pair step -/

/-- A pair operation that answers has taken the pair step of its bits (42_pair_encoder_2b1q.md R93). -/
theorem exec_pairOf_next {b1 b0 : Bool} {s t : State} :
    exec (pairOf b1 b0) s = .next t ↔ symbolEnabled .twoB1Q s = true ∧
      t = emitLevel (pairValue b1 b0) (table2B1Q b1 b0 (isPreviousPositive s.prevLevel)) s := by
  rw [exec_pairOf, pairStep_next]

section

variable {s : State} (hrun : s.run = .busy .symbols) (hs : s.scheme = .twoB1Q) (left : s.symIdx < s.input.length / 2)
include hrun hs left

theorem exec_pairOf_of_taken (b1 b0 : Bool) :
    exec (pairOf b1 b0) s =
      .next (emitLevel (pairValue b1 b0) (table2B1Q b1 b0 (isPreviousPositive s.prevLevel)) s) :=
  exec_pairOf_next.mpr ⟨(symbolEnabled_iff _ s).mpr ⟨hrun, hs, by rwa [symbolCount, hs]⟩, rfl⟩

/-- The whole next state of a pair operation, its record written out (42_pair_encoder_2b1q.md R93, R97, R102). -/
theorem exec_pairOf_eq (b1 b0 : Bool) :
    exec (pairOf b1 b0) s = .next { s with
      output := s.output ++ [if 0 < s.prevLevel then table2B1Q b1 b0 true else table2B1Q b1 b0 false]
      prevLevel := if 0 < s.prevLevel then table2B1Q b1 b0 true else table2B1Q b1 b0 false
      trace := s.trace ++
        [{ kind := .pair, index := s.symIdx + 1, scheme := .twoB1Q, p0 := pairValue b1 b0,
           p1 := prevState s.prevLevel,
           p2 := if 0 < s.prevLevel then table2B1Q b1 b0 true else table2B1Q b1 b0 false, codeA := 0#12,
           codeB := 0#12, hasData := true, snapLen := s.output.length + 1, hasBal := false, balSum := 0,
           balViol := false, balNote := .none }]
      symIdx := s.symIdx + 1
      run := if s.symIdx + 1 = s.input.length / 2 then .done else .busy .symbols } := by
  have count : symbolCount s = s.input.length / 2 := by rw [symbolCount, hs]; rfl
  rw [exec_pairOf_of_taken hrun hs left, emitLevel_eq, table2B1Q_of_prevLevel, count, hrun, hs]
  rfl

end

/-! ### Neutral is only before the first pair -/

/-- PREV_LEVEL is the last level of OUT, and no level is 0 (42_pair_encoder_2b1q.md R103). -/
theorem PairCarry.prevLevel_eq_zero_iff {s : State} (carry : PairCarry s) : s.prevLevel = 0 ↔ s.output = [] := by
  rcases s.output.eq_nil_or_concat with empty | ⟨earlier, last, ending⟩
  · simp [carry.prevLevel, empty]
  · have level := carry.levels last (by simp [ending])
    have carried : s.prevLevel = last := by simp [carry.prevLevel, ending]
    have neutral : s.prevLevel ≠ 0 := by omega
    simp [ending, neutral]

theorem prevState_eq_zero_iff (prev : Int) : prevState prev = 0 ↔ prev = 0 := by
  unfold prevState
  split
  · simp [*]
  · split <;> simp [*]

/-- A 2B1Q frame has as many levels as pairs encoded, so PREV_LEVEL is neutral exactly at SYM_IDX = 0. -/
theorem State.Inv.prevLevel_eq_zero_iff {s : State} (inv : s.Inv) (hs : s.scheme = .twoB1Q) :
    s.prevLevel = 0 ↔ s.symIdx = 0 := by
  have levels : s.output.length = s.symIdx := by simpa [hs, valuesPerSymbol] using inv.outLen
  rw [(inv.pairCarry hs).prevLevel_eq_zero_iff, ← List.length_eq_zero_iff, levels]

/-! ### The statements -/

/-- Settles O22: the four operations are the pair step of their bits, and each one's two levels are its table row. -/
theorem pairOperationsEmitTheirLevels : Obligations.PairOperationsEmitTheirLevels := by
  unfold Obligations.PairOperationsEmitTheirLevels
  refine ⟨decodeInvertsEncode .pair00 rfl, decodeInvertsEncode .pair01 rfl, decodeInvertsEncode .pair10 rfl,
    decodeInvertsEncode .pair11 rfl, fun s hrun hs left => ?_⟩
  have emits := exec_pairOf_eq hrun hs left
  simp only [List.forall_mem_cons]
  exact ⟨emits false false, emits false true, emits true false, emits true true, by simp⟩

/-- Settles O23: the level carried is the table's, whose magnitude and sign are read off its eight rows. -/
theorem pairLevelsHaveTheClosedForm : Obligations.PairLevelsHaveTheClosedForm := by
  unfold Obligations.PairLevelsHaveTheClosedForm
  intro s b1 b0 hrun hs left
  refine ⟨_, exec_pairOf_of_taken hrun hs left b1 b0, ?_⟩
  rw [emitLevel_eq]
  refine ⟨rfl, table2B1Q_natAbs _ _ _, ?_⟩
  simpa [isPreviousPositive] using table2B1Q_pos_iff b1 b0 (isPreviousPositive s.prevLevel)

/-- Settles O24: the record says neutral when PREV_LEVEL was 0, which under the invariant is at SYM_IDX = 0, where the
record's 1-based index is 1. -/
theorem neutralIsOnlyTheFirstPair : Obligations.NeutralIsOnlyTheFirstPair := by
  unfold Obligations.NeutralIsOnlyTheFirstPair
  rintro s t inv - hs ⟨b1, b0, h⟩
  obtain ⟨-, rfl⟩ := exec_pairOf_next.mp h
  rw [emitLevel_eq]
  refine ⟨table2B1Q_ne_zero _ _ _, _, rfl, ?_⟩
  have first := inv.prevLevel_eq_zero_iff hs
  rw [← prevState_eq_zero_iff] at first
  simpa [TraceRecord.stamp, pairRecord] using first

end Sys2Proof.Machine
end

section
/-! PROOFS, 43_byte_encoder_8b6t.md. `Decompose` (R105, R106), the two corrections (R108–R110, R115), the whole next
state of a byte step (R104), and what it does to the running sum and the carried code (R111, R116, R117). -/

namespace Sys2Proof.Machine

/-! ### Decompose -/

/-- Settles O25: the six trits are `decomposeTrit d 0` to `decomposeTrit d 5` in order. -/
theorem decomposeGivesBaseThreeDigits : Obligations.DecomposeGivesBaseThreeDigits := by
  unfold Obligations.DecomposeGivesBaseThreeDigits
  intro d i hi
  have inOrder : (decompose d).vals = (List.range 6).map fun i => (decomposeTrit d i).val := rfl
  rw [inOrder, List.getElem?_map, List.getElem?_range hi, Option.map_some, decomposeTrit_val]

/-- Six base-3 digits tell any two numbers below 3⁶ apart. -/
theorem decompose_injective_below {d e : Nat} (hd : d < 729) (he : e < 729) (same : decompose d = decompose e) :
    d = e := by
  have digit : ∀ i < 6, d / 3 ^ i % 3 = e / 3 ^ i % 3 := by
    intro i hi
    have trit := decomposeGivesBaseThreeDigits d i hi
    rw [same, decomposeGivesBaseThreeDigits e i hi] at trit
    simp only [Option.some.injEq] at trit
    omega
  have d0 := digit 0 (by decide)
  have d1 := digit 1 (by decide)
  have d2 := digit 2 (by decide)
  have d3 := digit 3 (by decide)
  have d4 := digit 4 (by decide)
  have d5 := digit 5 (by decide)
  omega

/-- 364 = 111111 in base 3 is the one number below 3⁶ whose trits are all 0. -/
theorem decompose_ne_zero_of_byte {d : Nat} (hd : d < 256) : decompose d ≠ Code.zero := by
  intro zero
  have : d = 364 := decompose_injective_below (by omega) (by decide) (zero.trans (by decide))
  omega

theorem decompose_lastTrit_of_byte {d : Nat} (hd : d < 256) :
    (decompose d).c5 = if d < 243 then .neg else .zero := by
  show Trit.ofDigit (d / 3 ^ 5 % 3) = _
  split
  · rw [show d / 3 ^ 5 % 3 = 0 by omega]; rfl
  · rw [show d / 3 ^ 5 % 3 = 1 by omega]; rfl

/-- A byte below 243 has its last trit −1, and one from there on its last but one. -/
theorem decompose_sum_le_of_byte {d : Nat} (hd : d < 256) : (decompose d).sum ≤ 4 := by
  have last := decomposeTrit_val d 5
  have lastButOne := decomposeTrit_val d 4
  have := (decomposeTrit d 0).val_bounds
  have := (decomposeTrit d 1).val_bounds
  have := (decomposeTrit d 2).val_bounds
  have := (decomposeTrit d 3).val_bounds
  have := (decomposeTrit d 4).val_bounds
  rw [Code.sum_eq]
  simp only [decompose]
  omega

/-- Settles O26: the counts are read off the 256 values; the rest holds by the base-3 digits. -/
theorem decomposeImageOnBytes : Obligations.DecomposeImageOnBytes := by
  unfold Obligations.DecomposeImageOnBytes
  refine ⟨fun d hd e he => decompose_injective_below (by omega) (by omega), fun d hd => ?_, rfl, rfl, rfl⟩
  have last := decompose_lastTrit_of_byte hd
  refine ⟨?_, ?_, (decompose d).sum_bounds.1, decompose_sum_le_of_byte hd, decompose_ne_zero_of_byte hd⟩
  · rw [last]; split <;> simp [*]
  · rw [last]; split <;> simp <;> omega

/-! ### The flip and the inversion -/

theorem flipTrit_eq (t : Trit) (rs : Int) :
    flipTrit t rs = (if t = .pos then .neg else t, rs - 2 * if t = .pos then 1 else 0) := by
  cases t <;> simp [flipTrit]

/-- Settles O27: each round of the loop flips its trit and takes its share from the running sum. -/
theorem flipPositivesFlipsEveryPlusOne : Obligations.FlipPositivesFlipsEveryPlusOne := by
  unfold Obligations.FlipPositivesFlipsEveryPlusOne
  intro c rs
  simp only [flipPositives, flipTrit_eq, Code.trits, List.map_cons, List.map_nil, List.count_cons, List.count_nil,
    beq_iff_eq, true_and]
  push_cast
  omega

/-- Which trits are flipped does not depend on the running sum. -/
theorem flipPositives_code (c : Code) (rs rs' : Int) : (flipPositives c rs).1 = (flipPositives c rs').1 := by
  simp only [flipPositives, flipTrit_eq]

/-- A flipped trit is −|t|, so the flipped code's sum is at most the negated sum (43_byte_encoder_8b6t.md R115). -/
theorem flipPositives_sum_le (c : Code) (rs : Int) : (flipPositives c rs).1.sum ≤ -c.sum := by
  have trit : ∀ t : Trit, (if t = .pos then .neg else t : Trit).val ≤ -t.val := by
    intro t; cases t <;> decide
  simp only [flipPositives, flipTrit_eq, Code.sum_eq]
  linarith [trit c.c0, trit c.c1, trit c.c2, trit c.c3, trit c.c4, trit c.c5]

theorem sameSigned_iff (a b : Int) : sameSigned a b = true ↔ (0 < a ∧ 0 < b) ∨ (a < 0 ∧ b < 0) :=
  decide_eq_true_iff

/-- Settles O28: the inversion negates each trit, and with it the sum. -/
theorem inversionNegatesEveryTrit : Obligations.InversionNegatesEveryTrit := by
  unfold Obligations.InversionNegatesEveryTrit
  exact ⟨fun c => ⟨invertCode_vals c, invertCode_sum c⟩, sameSigned_iff⟩

/-! ### Sub-steps 2 and 3 -/

/-- Sub-step 2 on what sub-step 1 leaves (43_byte_encoder_8b6t.md R108). -/
theorem correctPositive_startByte (index d : Nat) (rs : Int) :
    correctPositive index (decompose d).sum (startByte index d rs) =
      let code0 := decompose d
      let rs0 := rs + code0.sum
      let code1 := if 0 < code0.sum then (flipPositives code0 rs0).1 else code0
      let rs1 := if 0 < code0.sum then (flipPositives code0 rs0).2 else rs0
      { code := code1, rs := rs1,
        records := [decomposeRecord index d code0] ++
          if 0 < code0.sum then [dcBalanceRecord index code0.sum code0 code1 rs1] else [] } := by
  by_cases positive : 0 < (decompose d).sum <;> simp [correctPositive, startByte, positive]

/-- Sub-step 3 (43_byte_encoder_8b6t.md R109, R110). -/
theorem correctAlternation_eq (index : Nat) (previousSum : Int) (w : ByteWork) :
    correctAlternation index previousSum w =
      let inverts := (0 < w.code.sum ∧ 0 < previousSum) ∨ (w.code.sum < 0 ∧ previousSum < 0)
      let code2 := if inverts then invertCode w.code else w.code
      let rs2 := if inverts then w.rs - w.code.sum * 2 else w.rs
      { code := code2, rs := rs2,
        records := w.records ++
          if inverts then [dcAccumulationRecord index previousSum w.code.sum w.code code2 rs2] else [] } := by
  by_cases inverts : (0 < w.code.sum ∧ 0 < previousSum) ∨ (w.code.sum < 0 ∧ previousSum < 0) <;>
    simp [correctAlternation, sameSigned_iff, inverts]

/-- Settles O31: the flipped sum is at most the negated captured sum. -/
theorem currentSumIsNeverPositive : Obligations.CurrentSumIsNeverPositive := by
  unfold Obligations.CurrentSumIsNeverPositive
  intro index d rs
  have flipped := flipPositives_sum_le (decompose d) (rs + (decompose d).sum)
  simp only [correctPositive_startByte]
  split <;> omega

/-- The code after sub-step 2 is the same for every index and running sum. -/
theorem correctPositive_code (index index' d : Nat) (rs rs' : Int) :
    (correctPositive index (decompose d).sum (startByte index d rs)).code =
      (correctPositive index' (decompose d).sum (startByte index' d rs')).code := by
  simp only [correctPositive_startByte]
  rw [flipPositives_code]

/-! ### The byte step -/

/-- BYTE d in a state that takes it (43_byte_encoder_8b6t.md R104). -/
theorem exec_byte_of_taken {s : State} (hrun : s.run = .busy .symbols) (hs : s.scheme = .eightB6T)
    (left : s.symIdx < s.input.length / 8) (d : Byte) : exec (.byte d) s = .next (emitByte d.toNat s) :=
  execByte_next.mpr ⟨(symbolEnabled_iff _ s).mpr ⟨hrun, hs, by rwa [symbolCount, hs]⟩, rfl⟩

/-- A byte step moves the running sum by the final code's sum (43_byte_encoder_8b6t.md R111). -/
theorem emitByte_runningSum (d : Nat) (s : State) :
    (emitByte d s).runningSum = s.runningSum + (emitByte d s).prevCode.sum := by
  rw [emitByte_eq]
  exact encodeByte_balance _ _ _ _

/-- A byte step appends its final code, which it also carries (43_byte_encoder_8b6t.md R112). -/
theorem emitByte_output (d : Nat) (s : State) : (emitByte d s).output = s.output ++ (emitByte d s).prevCode.vals := by
  rw [emitByte_eq]

/-- The inversion happens exactly when the current and the previous sum are both negative, since the current sum is
never positive (43_byte_encoder_8b6t.md R115). -/
theorem emitByte_prevCode_sum (d : Nat) (s : State) :
    (emitByte d s).prevCode.sum =
      let currentSum := (correctPositive 0 (decompose d).sum (startByte 0 d 0)).code.sum
      if currentSum < 0 ∧ s.prevCode.sum < 0 then -currentSum else currentSum := by
  obtain ⟨notPositive, -⟩ := currentSumIsNeverPositive 0 d 0
  rw [emitByte_eq]
  simp only [encodeByte, correctAlternation_eq, correctPositive_code _ 0 d _ 0, notPositive.not_gt, false_and, false_or]
  split
  · exact invertCode_sum _
  · rfl

/-- Settles O29: the two corrections written out, and each record stamped with the scheme. -/
theorem byteStepFollowsItsSubSteps : Obligations.ByteStepFollowsItsSubSteps := by
  unfold Obligations.ByteStepFollowsItsSubSteps
  intro s d hrun hs left
  have count : symbolCount s = s.input.length / 8 := by rw [symbolCount, hs]; rfl
  rw [exec_byte_of_taken hrun hs left, emitByte_eq, encodeByte, correctPositive_startByte, correctAlternation_eq,
    count, hrun, hs]
  simp only [List.map_append, apply_ite (List.map _), List.append_assoc]
  rfl

/-- Settles O30: the sum of OUT and the running sum both grow by the final code's sum. -/
theorem byteStepGrowsRunningSumByFinalCode : Obligations.ByteStepGrowsRunningSumByFinalCode := by
  unfold Obligations.ByteStepGrowsRunningSumByFinalCode
  intro s d hrun hs left
  have grows := emitByte_runningSum d.toNat s
  have appends := emitByte_output d.toNat s
  refine ⟨_, exec_byte_of_taken hrun hs left d, grows, appends, ?_⟩
  rw [grows, appends, List.sum_append, Code.sum]
  omega

/-- Settles O32: the final sum is the current sum, negated exactly when it and the previous sum are both negative. -/
theorem finalSumFollowsPreviousSign : Obligations.FinalSumFollowsPreviousSign := by
  unfold Obligations.FinalSumFollowsPreviousSign
  intro s d hrun hs left currentSum
  have notPositive : currentSum ≤ 0 := (currentSumIsNeverPositive 0 d.toNat 0).1
  obtain ⟨lower, upper⟩ := (emitByte d.toNat s).prevCode.sum_bounds
  have final : (emitByte d.toNat s).prevCode.sum =
      if currentSum < 0 ∧ s.prevCode.sum < 0 then -currentSum else currentSum := emitByte_prevCode_sum d.toNat s
  refine ⟨_, exec_byte_of_taken hrun hs left d, lower, upper, ?_⟩
  clear_value currentSum
  rw [final]
  split <;> omega

/-- Settles O58: OUT holds six trits for each byte, and the running sum is their sum. -/
theorem runningSumIsBounded : Obligations.RunningSumIsBounded := by
  unfold Obligations.RunningSumIsBounded
  intro s inv hs
  have bounds := (inv.byteCarry hs).runningSum_le_output_length
  have values : s.output.length = 6 * s.symIdx := by rw [inv.outLen, hs]; rfl
  omega

end Sys2Proof.Machine
end

section
/-! PROOFS, 44_trace_recorder.md. The records a step adds, and what their data snapshots are (R125). -/

namespace Sys2Proof.Machine

/-- The record, made by the step that leaves `t`, carries all of OUT and the number of the symbol just encoded. -/
structure TraceRecord.SnapshotOf (t : State) (r : TraceRecord) : Prop where
  length : r.snapLen = t.output.length
  index : r.index = t.symIdx
  kind : r.kind = .pair ∨ r.kind = .byteFinal

/-- SNAP_LEN by INDEX, from OUT_LEN by SYM_IDX (10_state.md R24, R36(a)). -/
theorem TraceRecord.SnapshotOf.snapLen_eq {t : State} {r : TraceRecord} (snap : r.SnapshotOf t) (inv : t.Inv) :
    r.snapLen = valuesPerSymbol t.scheme * r.index := by
  rw [snap.length, snap.index, inv.outLen]

/-- The preliminary records have no data snapshot (44_trace_recorder.md R126). -/
theorem admitFrame_newRecords (v : Verdict) (s : State) :
    ∀ r ∈ (admitFrame v s).trace.drop s.trace.length, r.hasData = false := by
  unfold admitFrame
  split
  · simp
  · split
    · simp
    · simp [TraceRecord.stamp, inputAnalysisRecord, groupingRecord, blankRecord]

/-- The records a symbol step adds are snapshots of what it leaves when those it makes are: the scheme it stamps them
with is no part of a snapshot. -/
theorem SymbolAdvance.newRecords {vs : List Int} {rs : List TraceRecord} {s t : State} (adv : SymbolAdvance vs rs s t)
    (made : ∀ r ∈ rs, r.hasData = true → r.SnapshotOf t) :
    ∀ r ∈ t.trace.drop s.trace.length, r.hasData = true → r.SnapshotOf t := by
  rw [adv.trace, List.drop_left]
  intro r hr data
  obtain ⟨r', hr', rfl⟩ := List.mem_map.mp hr
  obtain ⟨length, index, kind⟩ := made r' hr' data
  exact ⟨length, index, kind⟩

theorem emitLevel_newRecords (p : Nat) (level : Int) (s : State) :
    ∀ r ∈ (emitLevel p level s).trace.drop s.trace.length, r.hasData = true → r.SnapshotOf (emitLevel p level s) := by
  have adv := emitLevel_advance p level s
  refine adv.newRecords fun r hr _ => ?_
  rw [List.mem_singleton.mp hr]
  exact ⟨by simp [pairRecord, adv.output], adv.symIdx.symm, .inl rfl⟩

/-- Of a byte step's records only the final one has a data snapshot (43_byte_encoder_8b6t.md R113). -/
theorem emitByte_newRecords (d : Nat) (s : State) :
    ∀ r ∈ (emitByte d s).trace.drop s.trace.length, r.hasData = true → r.SnapshotOf (emitByte d s) := by
  have adv := emitByte_advance d s
  obtain ⟨-, noData⟩ := encodeByte_records (s.symIdx + 1) d s.runningSum s.prevCode
  refine adv.newRecords fun r hr data => ?_
  rcases List.mem_append.mp hr with sub | final
  · simp [noData r sub] at data
  · rw [List.mem_singleton.mp final]
    exact ⟨by simp [finalRecord, adv.output], adv.symIdx.symm, .inr rfl⟩

/-- Every record with a data snapshot that an effect adds is a snapshot of the state it leaves; only the two symbol
steps add one. -/
theorem effect_newRecords {s t : State} (e : Effect s t) :
    ∀ r ∈ t.trace.drop s.trace.length, r.hasData = true → r.SnapshotOf t := by
  cases e with
  | level p l enabled hl => exact emitLevel_newRecords p l s
  | byte d enabled => exact emitByte_newRecords d.toNat s
  | validated hrun =>
    intro r hr data
    simp [admitFrame_newRecords _ s r hr] at data
  | nothing hb | frame sch hb | clear hb | illegal c hb hc | push c hb room | reply w => simp

/-- Settles O57: a step is the reset input, which leaves no record, or one effect; in the state it leaves the invariant
ties OUT_LEN to SYM_IDX, which is the record's INDEX. -/
theorem snapshotsAreAllOutputSoFar : Obligations.SnapshotsAreAllOutputSoFar := by
  unfold Obligations.SnapshotsAreAllOutputSoFar
  intro s t inv h r hr data
  have snap : r.SnapshotOf t := by
    obtain ⟨rest, ⟨rfl, -⟩ | e⟩ := step_effect h
    · simp at hr
    · exact effect_newRecords e r hr data
  exact ⟨snap.length, snap.snapLen_eq (stepKeepsInvariant s t inv h), snap.kind⟩

end Sys2Proof.Machine
end

section
/-! PROOFS, 60_exceptions.md. What an illegal command raises (R133), how ERROR is left (R137, R138), and the encoder's
silence outside the states of its rules (R145). -/

namespace Sys2Proof.Machine

/-! ### Illegal commands -/

/-- Settles O7: in either form the word is WR CMD's, and a word that names no command raises IllegalCommand. -/
theorem illegalCommandKeepsResults : Obligations.IllegalCommandKeepsResults := by
  unfold Obligations.IllegalCommandKeepsResults
  intro s c rest hb h0 h1 h5 h2
  have illegal : decodeCommand c = none := (decodeCommand_none_iff c).mpr ⟨h0, h1, h5, h2⟩
  have raised : exec (.wrCmd c) { s with pending := rest } = .next (raiseIllegalCommand c { s with pending := rest }) :=
    exec_wrCmd_of_none illegal hb
  exact ⟨(step_of_commandWord (.inl rfl)).trans raised, (step_of_commandWord (.inr rfl)).trans raised⟩

/-! ### The encoder outside the states of its rules -/

/-- Where a symbol step of a scheme is not taken (42_pair_encoder_2b1q.md R93, 43_byte_encoder_8b6t.md R104). -/
theorem symbolEnabled_eq_false {sch : Scheme} {s : State}
    (h : s.run ≠ .busy .symbols ∨ s.scheme ≠ sch ∨ s.input.length / symbolWidth sch ≤ s.symIdx) :
    symbolEnabled sch s = false := by
  rw [← Bool.not_eq_true, symbolEnabled_iff]
  rintro ⟨hrun, rfl, left⟩
  rcases h with phase | scheme | ended
  · exact phase hrun
  · exact scheme rfl
  · exact absurd left (Nat.not_lt.mpr ended)

theorem exec_pairOf_of_not_enabled {s : State} (h : symbolEnabled .twoB1Q s = false) (b1 b0 : Bool) :
    exec (pairOf b1 b0) s = .refused .stepNotEnabled := by
  simp [exec_pairOf, pairStep, h]

theorem exec_pair_of_not_enabled {s : State} (h : symbolEnabled .twoB1Q s = false) :
    ∀ i ∈ [Instr.pair00, .pair01, .pair10, .pair11], exec i s = .refused .stepNotEnabled := by
  have refused := exec_pairOf_of_not_enabled h
  simp only [List.forall_mem_cons]
  exact ⟨refused false false, refused false true, refused true false, refused true true, nofun⟩

theorem exec_byte_of_not_enabled {s : State} (h : symbolEnabled .eightB6T s = false) (d : Byte) :
    exec (.byte d) s = .refused .stepNotEnabled := by
  simp [exec, execByte, h]

theorem exec_validate_of_other_state {s : State} (h : s.run ≠ .busy .validate) :
    exec .validate s = .refused .stepNotEnabled := by
  simp [exec, execValidate, h]

/-- Settles O43: outside BUSY there is no encoder step, and an encoder instruction outside the states of its rule is
refused, every state that is not BUSY among them. -/
theorem encoderHasNoStepUnlessBusy : Obligations.EncoderHasNoStepUnlessBusy := by
  unfold Obligations.EncoderHasNoStepUnlessBusy
  refine ⟨fun s rest hb => ?_, fun s => exec_validate_of_other_state, fun s h => ?_, fun s h => ?_⟩
  · have phase := (busy_eq_false_iff s).mp hb
    refine ⟨encoderStep_of_not_busy hb, encoderStep_of_not_busy hb, ?_, ?_⟩
    · exact List.forall_mem_cons.mpr ⟨exec_validate_of_other_state (phase .validate),
        exec_pair_of_not_enabled (symbolEnabled_eq_false (.inl (phase .symbols)))⟩
    · exact exec_byte_of_not_enabled (symbolEnabled_eq_false (.inl (phase .symbols)))
  · exact exec_pair_of_not_enabled (symbolEnabled_eq_false (h.imp_right (.imp_left fun hs => by simp [hs])))
  · exact exec_byte_of_not_enabled (symbolEnabled_eq_false (h.imp_right (.imp_left fun hs => by simp [hs])))

/-! ### How ERROR is left -/

/-- A host access that answers issues WR CMD's word, appends to IN or gives a reply (30_encoding.md R57). -/
theorem hostStep_access_next {key : Byte} {ops : List Word} {s t : State}
    (h : hostStep (.access key ops) s = .next t) :
    (∃ c, key = 0x80#8 ∧ ops = [c] ∧ exec (.wrCmd c) s = .next t) ∨
      (∃ v, t = appendInput v s) ∨ ∃ w, t = giveReply w s := by
  have read {i : Instr} (hi : isRead i = true) (he : exec i s = .next t) : ∃ w, t = giveReply w s := by
    obtain ⟨w, rfl, -⟩ := readsAreIdempotent i s t hi he
    exact ⟨w, rfl⟩
  cases hd : decode (.access key ops) with
  | error e =>
    obtain ⟨-, he⟩ := unlessBusy_next.mp (hostStep_of_error hd s ▸ h)
    cases e with
    | illegalCommand c => cases (decode_illegalCommand hd).1
    | keyNotAdmitted k | wrongOperands k | fieldOutOfRange f | notBinary => cases he
  | ok i =>
    have item := encode_of_decodeAccess hd
    rw [hostStep_of_decode hd] at h
    cases i with
    | wrCmd c => cases item; exact .inl ⟨c, rfl, rfl, h⟩
    | wrInData v =>
      rw [exec, execWrInData] at h
      obtain ⟨-, he⟩ := unlessBusy_next.mp h
      split at he <;> cases he
      exact .inr (.inl ⟨_, rfl⟩)
    | rdStatus | rdErrInfo | rdInLen | rdOutLen | rdTraceLen | rdSymIdx | rdPrevLevel | rdRunningSum | rdPrevCode
    | rdPrevSum => exact .inr (.inr (read rfl h))
    | rdIn k | rdOut k => exact .inr (.inr (read rfl h))
    | rdTr k f => exact .inr (.inr (read rfl h))
    | nop | encode2b1q | encode8b6t | clear | pair00 | pair01 | pair10 | pair11 | validate => cases item
    | byte d => cases item

/-- Outside BUSY a step is the reset input, a command word in either form, an append to IN or a reply: the encoder has
no turn (60_exceptions.md R145). -/
theorem step_next_of_not_busy {s t : State} (hb : s.busy = false) (h : step s = .next t) :
    ∃ rest, (s.pending = .reset :: rest ∧ t = resetBlock { s with pending := rest }) ∨
      (∃ c, (s.pending = .command c :: rest ∨ s.pending = .access 0x80#8 [c] :: rest) ∧
        exec (.wrCmd c) { s with pending := rest } = .next t) ∨
      (∃ v, t = appendInput v { s with pending := rest }) ∨ ∃ w, t = giveReply w { s with pending := rest } := by
  have noTurn (hp : s.pending = [] ∨ ∃ rest, s.pending = .encoder :: rest) : False := by
    have idle := encoderStep_of_not_busy (s := { s with pending := s.pending.tail }) hb
    cases idle.symm.trans ((step_of_encoderTurn hp).symm.trans h)
  cases hp : s.pending with
  | nil => exact (noTurn (.inl hp)).elim
  | cons e rest =>
    cases e with
    | encoder => exact (noTurn (.inr ⟨rest, hp⟩)).elim
    | reset =>
      cases (step_of_reset hp).symm.trans h
      exact ⟨rest, .inl ⟨rfl, rfl⟩⟩
    | command c => exact ⟨rest, .inr (.inl ⟨c, .inl rfl, step_of_commandWord (.inl hp) ▸ h⟩)⟩
    | access key ops =>
      rw [step, hp] at h
      obtain ⟨c, rfl, rfl, hw⟩ | other := hostStep_access_next h
      · exact ⟨rest, .inr (.inl ⟨c, .inr rfl, hw⟩)⟩
      · exact ⟨rest, .inr (.inr other)⟩

/-- ENCODE and CLEAR leave ERROR and clear the error registers (60_exceptions.md R137). -/
theorem commandEffect_clearsError {k : Command} (hk : k ≠ .nop) (s : State) :
    (commandEffect k s).run ≠ .error ∧ (commandEffect k s).errCode = .none ∧ (commandEffect k s).errInfo = 0#32 := by
  cases k with
  | nop => exact absurd rfl hk
  | encode2b1q | encode8b6t | clear => exact ⟨nofun, rfl, rfl⟩

/-- Settles O55: ERROR is not BUSY, so a step is the reset input, an append to IN, a reply, or a command word, which is
NOP's, one that leaves ERROR, or illegal. -/
theorem errorIsLeftOnlyByEncodeClearOrReset : Obligations.ErrorIsLeftOnlyByEncodeClearOrReset := by
  unfold Obligations.ErrorIsLeftOnlyByEncodeClearOrReset
  intro s t hrun h
  have hb : s.busy = false := (busy_eq_false_iff s).mpr fun _ => hrun ▸ nofun
  obtain ⟨rest, ⟨hp, rfl⟩ | ⟨c, hp, hw⟩ | ⟨v, rfl⟩ | ⟨w, rfl⟩⟩ := step_next_of_not_busy hb h
  · exact .inr (.inr ⟨nofun, rfl, rfl, rest, .inl hp⟩)
  · obtain ⟨k, decoded, rfl⟩ | ⟨illegal, rfl⟩ := execWrCmd_next hw
    · by_cases hk : k = .nop
      · subst hk
        exact .inl ⟨hrun, rfl, rfl⟩
      · obtain ⟨run, code, info⟩ := commandEffect_clearsError hk { s with pending := rest }
        have leaves : c = 1#32 ∨ c = 5#32 ∨ c = 2#32 := (emptyingWord_iff c).mpr ⟨k, hk, decoded⟩
        exact .inr (.inr ⟨run, code, info, rest, .inr ⟨c, leaves, hp⟩⟩)
    · exact .inr (.inl ⟨rfl, rfl, c, rest, illegal, rfl, hp⟩)
  · exact .inl ⟨hrun, rfl, rfl⟩
  · exact .inl ⟨hrun, rfl, rfl⟩

end Sys2Proof.Machine
end

section
/-! PROOFS, 70_reset_and_hazards.md. Reset and CLEAR (R146, R147), and the accesses refused while BUSY (R151). -/

namespace Sys2Proof.Machine

/-! ### Reset and CLEAR -/

theorem exec_command_of_busy (k : Command) {s : State} (hb : s.busy = true) :
    exec k.instr s = .refused .accessWhileBusy := by
  cases k <;> exact unlessBusy_of_busy (fun s => .next (commandEffect _ s)) hb

/-- Settles O1: the reset input applies `resetBlock` in every state; it is also CLEAR's effect outside BUSY. -/
theorem resetAndClearGiveResetState : Obligations.ResetAndClearGiveResetState := by
  unfold Obligations.ResetAndClearGiveResetState
  refine fun s rest => ⟨⟨_, step_of_reset rfl, ?_⟩, fun hb => ⟨_, exec_command .clear hb, step_of_reset rfl⟩,
    fun hb => exec_command_of_busy .clear hb⟩
  exact ⟨rfl, rfl, rfl, rfl, rfl, rfl, rfl, rfl, rfl, rfl, rfl, rfl, rfl, rfl⟩

/-! ### The BUSY window -/

/-- A read but RD STATUS looks at BUSY first (40_host_interface.md R75–R78). -/
theorem exec_read_of_busy {i : Instr} {s : State} (hi : isRead i = true) (notStatus : i ≠ .rdStatus)
    (hb : s.busy = true) : exec i s = .refused .accessWhileBusy := by
  cases i with
  | rdStatus => exact absurd rfl notStatus
  | rdErrInfo | rdInLen | rdOutLen | rdTraceLen | rdSymIdx | rdPrevLevel | rdRunningSum | rdPrevCode | rdPrevSum =>
    exact answer_readRegister_of_busy _ hb
  | rdIn k => simp [exec, execRdIn, readIn, hb, answer]
  | rdOut k => simp [exec, execRdOut, readOut, hb, answer]
  | rdTr k f => simp [exec, execRdTr, readTrace, hb, answer]
  | nop | encode2b1q | encode8b6t | clear | pair00 | pair01 | pair10 | pair11 | validate => cases hi
  | wrCmd c | wrInData c | byte c => cases hi

/-- While BUSY an access is refused, whatever its key and operands, unless it is RD STATUS: a rejected one before its
decoding matters (60_exceptions.md R136), an admitted write or read by its own rule. -/
theorem hostStep_access_of_busy {key : Byte} {ops : List Word} {s : State} (hb : s.busy = true)
    (notStatus : key ≠ 0x01#8 ∨ ops ≠ []) : hostStep (.access key ops) s = .refused .accessWhileBusy := by
  cases hd : decode (.access key ops) with
  | error e => exact (hostStep_of_error hd s).trans (unlessBusy_of_busy _ hb)
  | ok i =>
    have item := encode_of_decodeAccess hd
    rw [hostStep_of_decode hd]
    cases i with
    | rdStatus => cases item; simp at notStatus
    | wrCmd c => exact exec_wrCmd_of_busy c hb
    | wrInData v => rw [exec, execWrInData, unlessBusy_of_busy _ hb]
    | rdErrInfo | rdInLen | rdOutLen | rdTraceLen | rdSymIdx | rdPrevLevel | rdRunningSum | rdPrevCode | rdPrevSum =>
      exact exec_read_of_busy rfl nofun hb
    | rdIn k | rdOut k => exact exec_read_of_busy rfl nofun hb
    | rdTr k f => exact exec_read_of_busy rfl nofun hb
    | nop | encode2b1q | encode8b6t | clear | pair00 | pair01 | pair10 | pair11 | validate => cases item
    | byte d => cases item

/-- Settles O16: a command word is refused as WR CMD of it is, an access other than RD STATUS by its rule, and RD STATUS
answers the word whose STATE field is BUSY's code. -/
theorem busyWindowRefusesAllButStatus : Obligations.BusyWindowRefusesAllButStatus := by
  unfold Obligations.BusyWindowRefusesAllButStatus
  intro s rest hb
  refine ⟨fun c => ?_, fun key ops notStatus => hostStep_access_of_busy hb notStatus, statusWord s, rfl, ?_⟩
  · have word : step { s with pending := .command c :: rest } = exec (.wrCmd c) { s with pending := rest } :=
      step_of_commandWord (.inl rfl)
    exact word.trans (exec_wrCmd_of_busy c hb)
  · obtain ⟨state, -⟩ := statusWord_fields s
    exact state.trans ((RunState.code_eq_one_iff s).mpr hb)

end Sys2Proof.Machine
end
